-- ==== Sys2Proof/Word.lean ====
section
/-! DEFINITION. The words of the block: bit vectors only where the spec treats a value as bits (R13: bit 0 is the
least significant bit, every value is unsigned). -/
namespace Sys2Proof

/-- A 64-bit value: RESULT, and the carrier of a storage word. A word of a block with W = 32 is held as its zero
extension to 64 bits (DESIGN CHOICE, safe: notes/assumptions/3.md); `Machine.Slot.wf` says that it is below `2^W`. -/
abbrev Word := BitVec 64

/-- The 64-bit operand ARG (R12, R49, R59). -/
abbrev Arg := BitVec 64

/-- A 4-bit slot handle, the VD or VS field (R50, R59). -/
abbrev Handle := BitVec 4

/-- The 16-bit command header HDR (R49, R50). -/
abbrev Hdr := BitVec 16

end Sys2Proof
end

