-- ==== Sys2Proof/Config.lean ====
section
/-! DEFINITION. What an instance of the block fixes (00_scope.md section 4), and the one value the spec leaves free. -/
namespace Sys2Proof

/-- The two word widths the spec admits (R7). -/
inductive Width where
  | w32
  | w64
deriving DecidableEq, Repr

/-- `W`, the word width in bits (R7). -/
def Width.bits : Width → Nat
  | .w32 => 32
  | .w64 => 64

/-- The parameters of one instance: `W` (R7), `NV` (R10) and `MAX_WORDS` (R11). They are configuration, not state:
no command reads them as data or changes them (10_state.md, introduction). -/
structure Config where
  width      : Width
  numVectors : Nat
  maxWords   : Nat
deriving DecidableEq, Repr

/-- The ranges the spec gives the parameters: `2 <= NV <= 16` (R10), `1 <= MAX_WORDS` and `MAX_WORDS * W <= 2^64`
(R11). -/
abbrev Config.Legal (c : Config) : Prop :=
  2 ≤ c.numVectors ∧ c.numVectors ≤ 16 ∧ 1 ≤ c.maxWords ∧ c.maxWords * c.width.bits ≤ 2 ^ 64

/-- The instance `State.reset` is of: the test configuration of 95_test_vectors.md (`NV = 4`, `MAX_WORDS = 8`) at the
default test width `W = 64` (92 D3). DESIGN CHOICE, unsafe where a claim about `State.reset` is read as one about
every instance: notes/assumptions/2.md. -/
def Config.testInstance : Config := { width := .w64, numVectors := 4, maxWords := 8 }

/-- FREE VALUE (93 I13, R103): which of the values the host presented becomes the command, where the host changed
the command while it was offered. It has no body: nothing in Lean can evaluate it. Applied to the run's draw counter. -/
opaque Config.presentedChoice : Nat → Nat

end Sys2Proof
end

