-- ==== Sys2Proof/Syntax.lean ====
section
/-! DEFINITION. The commands as syntax: one constructor per row of spec/opcode_table.json. -/
namespace Sys2Proof

/-- A command as it crosses the command port: one 16-bit header and one 64-bit operand (R49). -/
structure Command where
  hdr : Hdr
  arg : Arg
deriving DecidableEq, Repr

/-- The commands of R51, each with the operands its row uses, and the reserved encoding of R56. A field a command
ignores (R57) is no operand of it. -/
inductive Instr where
  /-- `BV_NEW vD, n` (R62). -/
  | bvNew (vd : Handle) (n : Arg)
  /-- `BV_SET vD, i` (R63). -/
  | bvSet (vd : Handle) (i : Arg)
  /-- `BV_GET vD, i` (R64). -/
  | bvGet (vd : Handle) (i : Arg)
  /-- `BV_GETSET vD, i` (R65). -/
  | bvGetset (vd : Handle) (i : Arg)
  /-- `BV_OR vD, vS` (R66). -/
  | bvOr (vd vs : Handle)
  /-- `BV_AND vD, vS` (R67). -/
  | bvAnd (vd vs : Handle)
  /-- `BV_CLEAR vD` (R68). -/
  | bvClear (vd : Handle)
  /-- `BV_ISEMPTY vD` (R69). -/
  | bvIsempty (vd : Handle)
  /-- `CV_NEW vD, n` (R74). -/
  | cvNew (vd : Handle) (n : Arg)
  /-- `CV_INC vD, i` (R75). -/
  | cvInc (vd : Handle) (i : Arg)
  /-- `CV_DEC vD, i` (R76). -/
  | cvDec (vd : Handle) (i : Arg)
  /-- `CV_GET vD, i` (R77). -/
  | cvGet (vd : Handle) (i : Arg)
  /-- `CV_CLEAR vD` (R78). -/
  | cvClear (vd : Handle)
  /-- `ALIGN_UP m` (R80). -/
  | alignUp (m : Arg)
  /-- `RD_WORD vD, j` (R70). -/
  | rdWord (vd : Handle) (j : Arg)
  /-- The table's `(reserved)` row: a header with RSV not 0 or OP = 0xF (R56). The header is kept so that the encoder
  can give it back; the block records nothing of it (R89; DEDUCED, safe: notes/assumptions/11.md). -/
  | reserved (hdr : Hdr)
deriving DecidableEq, Repr

end Sys2Proof
end

