-- ==== Sys2Proof/WellFormed.lean ====
section
/-! DEFINITION. Which terms of `Instr` stand for an encoding. -/
namespace Sys2Proof

/-- Handles and ARG are bit vectors of their fields' widths, so every value of them is encodable: a handle at or above
NV is no ill-formed command but one that raises IllegalCommand (R83). The one check is that a `reserved` term holds a
header that is reserved: RSV not 0, or OP = 0xF (R56). -/
def Instr.wellFormed : Instr → Bool
  | .bvNew _ _ => true
  | .bvSet _ _ => true
  | .bvGet _ _ => true
  | .bvGetset _ _ => true
  | .bvOr _ _ => true
  | .bvAnd _ _ => true
  | .bvClear _ => true
  | .bvIsempty _ => true
  | .cvNew _ _ => true
  | .cvInc _ _ => true
  | .cvDec _ _ => true
  | .cvGet _ _ => true
  | .cvClear _ => true
  | .alignUp _ => true
  | .rdWord _ _ => true
  | .reserved hdr => hdr.extractLsb' 12 4 != 0 || hdr.extractLsb' 0 4 == 0xF

end Sys2Proof
end

