-- ==== Sys2Proof/Decode.lean ====
section
/-! DEFINITION. The decoder, total on every header and operand (R51, R56, R57, R58), and the encoder, both written from
the field table of R50 and the opcode map of R51. -/
namespace Sys2Proof

/-- `OP`, header bits 3..0 (R50). -/
def Hdr.op (hdr : Hdr) : BitVec 4 := hdr.extractLsb' 0 4

/-- `VD`, header bits 7..4 (R50). -/
def Hdr.vd (hdr : Hdr) : Handle := hdr.extractLsb' 4 4

/-- `VS`, header bits 11..8 (R50). -/
def Hdr.vs (hdr : Hdr) : Handle := hdr.extractLsb' 8 4

/-- `RSV`, header bits 15..12 (R50). -/
def Hdr.rsv (hdr : Hdr) : BitVec 4 := hdr.extractLsb' 12 4

/-- The opcode map of R51, applied to a header whose RSV field is 0. -/
def decodeOp (hdr : Hdr) (arg : Arg) : Instr :=
  match hdr.op.toNat with
  | 0x0 => .bvNew hdr.vd arg
  | 0x1 => .bvSet hdr.vd arg
  | 0x2 => .bvGet hdr.vd arg
  | 0x3 => .bvGetset hdr.vd arg
  | 0x4 => .bvOr hdr.vd hdr.vs
  | 0x5 => .bvAnd hdr.vd hdr.vs
  | 0x6 => .bvClear hdr.vd
  | 0x7 => .bvIsempty hdr.vd
  | 0x8 => .cvNew hdr.vd arg
  | 0x9 => .cvInc hdr.vd arg
  | 0xA => .cvDec hdr.vd arg
  | 0xB => .cvGet hdr.vd arg
  | 0xC => .cvClear hdr.vd
  | 0xD => .alignUp arg
  | 0xE => .rdWord hdr.vd arg
  | _ => .reserved hdr

/-- The decoder. Every header either decodes to a command of R51 or is illegal, by name `reserved` (R56): RSV is
checked before OP selects. -/
def decode (c : Command) : Instr :=
  if c.hdr.rsv = 0 then decodeOp c.hdr c.arg else .reserved c.hdr

/-- `HDR = (VS << 8) | (VD << 4) | OP`, with RSV 0 (R50). -/
def mkHdr (op : BitVec 4) (vd vs : Handle) : Hdr :=
  (vs.setWidth 16 <<< 8) ||| (vd.setWidth 16 <<< 4) ||| op.setWidth 16

/-- The encoder. A field a command ignores is encoded as 0 (R60). -/
def encode : Instr → Command
  | .bvNew vd n => ⟨mkHdr 0x0 vd 0, n⟩
  | .bvSet vd i => ⟨mkHdr 0x1 vd 0, i⟩
  | .bvGet vd i => ⟨mkHdr 0x2 vd 0, i⟩
  | .bvGetset vd i => ⟨mkHdr 0x3 vd 0, i⟩
  | .bvOr vd vs => ⟨mkHdr 0x4 vd vs, 0⟩
  | .bvAnd vd vs => ⟨mkHdr 0x5 vd vs, 0⟩
  | .bvClear vd => ⟨mkHdr 0x6 vd 0, 0⟩
  | .bvIsempty vd => ⟨mkHdr 0x7 vd 0, 0⟩
  | .cvNew vd n => ⟨mkHdr 0x8 vd 0, n⟩
  | .cvInc vd i => ⟨mkHdr 0x9 vd 0, i⟩
  | .cvDec vd i => ⟨mkHdr 0xA vd 0, i⟩
  | .cvGet vd i => ⟨mkHdr 0xB vd 0, i⟩
  | .cvClear vd => ⟨mkHdr 0xC vd 0, 0⟩
  | .alignUp m => ⟨mkHdr 0xD 0 0, m⟩
  | .rdWord vd j => ⟨mkHdr 0xE vd 0, j⟩
  | .reserved hdr => ⟨hdr, 0⟩

/-- A command as one number: header bits 15..0, and ARG in the bits above them, 79..16. The two travel on ports of
their own (R49); laying ARG above the header is the model's (DESIGN CHOICE, safe: notes/assumptions/14.md). -/
def Command.ofNat (w : Nat) : Command := ⟨BitVec.ofNat 16 w, BitVec.ofNat 64 (w / 2 ^ 16)⟩

/-- The instruction the decoder reads from the low `nbits` bits of `w`, every higher bit being 0. A command has 80
bits and no longer form exists (R49, R58), so a longer row is refused. -/
def decodeTableWord (nbits w : Nat) : Option Instr :=
  if nbits ≤ 80 then some (decode (Command.ofNat (w % 2 ^ nbits))) else none

end Sys2Proof
end

