-- ==== Sys2Proof/Machine/State.lean ====
section
/-! DEFINITION. The block's state as plain data (10_state.md), the state after reset, and the reasons a step can stop. -/
namespace Sys2Proof.Machine

/-- What a slot was last allocated as (R19). -/
inductive Kind where
  | none
  | bit
  | ctr
deriving DecidableEq, Repr

/-- A vector slot (R19): its kind and its packed words, word 0 first. The spec's third field `len` is the length of
`words` (R20 asks that the two agree and lets a model represent `words` as a list of length `len`): `Slot.len`. -/
structure Slot where
  kind  : Kind
  words : List Word
deriving DecidableEq, Repr

/-- `len`, the slot's word count (R19). DEDUCED from R20's third invariant, safe: notes/assumptions/4.md. -/
abbrev Slot.len (v : Slot) : Nat := v.words.length

/-- A slot as reset leaves it: kind NONE, `len` 0 (R31). -/
def Slot.unallocated : Slot := ⟨.none, []⟩

/-- The block's storage: the slots `V[0] .. V[NV-1]`, in handle order (R18). The block has no other memory (R36, R42;
DESIGN CHOICE, safe: notes/assumptions/13.md). -/
abbrev Memory := List Slot

/-- The slot invariants of R20, and the bound of a `W`-bit word on its 64-bit carrier. -/
def Slot.wf (w : Width) (maxWords : Nat) (v : Slot) : Bool :=
  (v.kind != .none || v.len == 0) && decide (v.len ≤ maxWords) && v.words.all (fun x => decide (x.toNat < 2 ^ w.bits))

/-- The form every memory of the block has: as many slots as R10 admits, each within R20. -/
def Memory.wf (w : Width) (maxWords : Nat) (m : Memory) : Bool :=
  decide (2 ≤ m.length) && decide (m.length ≤ 16) && m.all (Slot.wf w maxWords)

/-- The block's two handshake outputs, at transaction level (R54, R55, R99). No other pair of values occurs.
DESIGN CHOICE (the level, R6), safe: notes/assumptions/7.md. -/
inductive PortPhase where
  /-- `cmd_ready = 0`, `rsp_valid = 0`: reset was the last event (R99). -/
  | inReset
  /-- `cmd_ready = 1`, `rsp_valid = 0`: the block waits for a command. -/
  | ready
  /-- `cmd_ready = 0`, `rsp_valid = 1`: a response is offered and not yet delivered (R55). -/
  | responding
deriving DecidableEq, Repr

/-- What the host does at the block's ports, one transaction each (R54, R99, R103). -/
inductive HostAction where
  /-- Offer a command and hold it stable until it is accepted (R54). -/
  | command (c : Command)
  /-- Offer `first`, then change it to the values `later`, in turn, before it is accepted (R103, 93 I13). -/
  | commandChanged (first : Command) (later : List Command)
  /-- Raise `rsp_ready`: take the response on offer (R54). -/
  | takeResponse
  /-- `rst = 1` at a rising edge (R99). -/
  | reset
deriving DecidableEq, Repr

/-- Everything the spec gives the block (R18 to R29), the state of its ports (R54, R55), and two fields of the model's
own, `host` and `draws`. INVENTORY.md, State, lists each with its rule and reset value. -/
structure State where
  /-- `W`, a parameter: no step changes it (R7). Held here because a step has no other argument (notes/assumptions/1.md). -/
  width     : Width
  /-- `MAX_WORDS`, a parameter: no step changes it (R11). -/
  maxWords  : Nat
  /-- The vector slots (R18). Their number is the parameter `NV` (R10): `State.numVectors`. -/
  slots     : Memory
  /-- FAULTED (R23). The `fault` output is a level equal to it (R91). -/
  faulted   : Bool
  /-- FAULT_CODE (R24). -/
  faultCode : BitVec 4
  /-- STATUS (R25). -/
  status    : BitVec 4
  /-- RESULT (R25). -/
  result    : BitVec 64
  /-- `cmd_ready` and `rsp_valid` (R54, R55). -/
  port      : PortPhase
  /-- The host's actions still to come, the next one first. Not the block's: it stands for the ports' inputs
  (DESIGN CHOICE: notes/assumptions/6.md). -/
  host      : List HostAction
  /-- How many free values the run has drawn (93 I13). Not the block's (DESIGN CHOICE: notes/assumptions/9.md). -/
  draws     : Nat
deriving DecidableEq, Repr

/-- The block's output signals (R54). -/
structure Outputs where
  cmdReady  : Bool
  rspValid  : Bool
  rspStatus : BitVec 4
  rspResult : BitVec 64
  fault     : Bool
deriving DecidableEq, Repr

/-- `NV`, the number of slots the block holds (R10, R18). -/
def State.numVectors (s : State) : Nat := s.slots.length

/-- The parameters of the instance a state is of. -/
def State.config (s : State) : Config := ⟨s.width, s.numVectors, s.maxWords⟩

/-- The state of an instance right after reset (R31, R99). -/
def State.afterReset (c : Config) : State where
  width     := c.width
  maxWords  := c.maxWords
  slots     := List.replicate c.numVectors Slot.unallocated
  faulted   := false
  faultCode := 0
  status    := 0
  result    := 0
  port      := .inReset
  host      := []
  draws     := 0

/-- The state right after reset of the instance `Config.testInstance`, with no host action to come
(notes/assumptions/2.md, 6.md). -/
def State.reset : State := State.afterReset Config.testInstance

/-- Why a step stops. No command stops the machine: an error of the spec is a next state (R89, R107). -/
inductive Fault where
  /-- Raised by `step` alone: a response is on offer, and the host offers a further command without having taken it. The
  response waits and so does every later command (R107); 93 I14 calls this stuck, no step. DEDUCED, safe:
  notes/assumptions/8.md. -/
  | responsePending
deriving DecidableEq, Repr

/-- Why a step refuses. -/
inductive Refusal where
  /-- An instruction that has no meaning yet. Raised by no arm: every instruction has its meaning. Safe. -/
  | notModelled (mnemonic : String)
deriving DecidableEq, Repr

end Sys2Proof.Machine
end

