-- ==== Sys2Proof/Machine/Flags.lean ====
section
/-! DEFINITION. The block has no condition flags, and saturation is recorded nowhere (R28). What a command reports
stands in STATUS: its codes (R52), and the errors with their codes and classes (R82 to R87, R89). -/
namespace Sys2Proof.Machine

/-- The errors a command can raise (R82 to R86). -/
inductive Error where
  /-- `BV_OR`/`BV_AND` on slots of different `len` (R84). -/
  | incompatibleSize
  /-- `BV_NEW`/`CV_NEW` with `ARG > MAX_WORDS` (R85). -/
  | capacityExceeded
  /-- `ALIGN_UP` whose result does not fit 64 bits (R86). -/
  | alignOverflow
  /-- An index at or beyond the slot's bound (R82). -/
  | outOfRange
  /-- A reserved encoding, a bad handle or a wrong kind (R83). -/
  | illegalCommand
deriving DecidableEq, Repr

/-- STATUS of a command performed (R52). -/
def statusOk : BitVec 4 := 0x0

/-- STATUS of a command refused in the fault state (R52, R87). -/
def statusFaulted : BitVec 4 := 0xF

/-- The status code of an error (R52). -/
def Error.code : Error → BitVec 4
  | .incompatibleSize => 0x1
  | .capacityExceeded => 0x2
  | .alignOverflow => 0x3
  | .outOfRange => 0x8
  | .illegalCommand => 0x9

/-- The class of an error: fatal errors set FAULTED, recoverable ones do not (R52, R89). -/
def Error.fatal : Error → Bool
  | .incompatibleSize => false
  | .capacityExceeded => false
  | .alignOverflow => false
  | .outOfRange => true
  | .illegalCommand => true

end Sys2Proof.Machine
end

