-- ==== Sys2Proof/Machine/Operands.lean ====
section
/-! DEFINITION. The operand forms: how an index names a bit or a counter inside a word (R8, R9, R33, R34), the
packed-counter functions (R72, R73), and the handle, kind and operand checks of R90, steps 3 to 5. Index arithmetic is
exact (R14), so it is on natural numbers. -/
namespace Sys2Proof.Machine

/-- `wordShift = log2(W)` (R8). -/
def wordShift : Width → Nat
  | .w32 => 5
  | .w64 => 6

/-- `wordMask = W - 1` (R8). -/
def wordMask : Width → Nat
  | .w32 => 31
  | .w64 => 63

/-- `S = W / 4`, the counters of a word (R9). -/
def countersPerWord : Width → Nat
  | .w32 => 8
  | .w64 => 16

/-- `counterShift = log2(S)` (R9). -/
def counterShift : Width → Nat
  | .w32 => 3
  | .w64 => 4

/-- `counterMask = S - 1` (R9). -/
def counterMask : Width → Nat
  | .w32 => 7
  | .w64 => 15

/-- A place inside a slot: a word index, and a sub-position (R33) or slot within word (R34). -/
structure Place where
  word : Nat
  pos  : Nat
deriving DecidableEq, Repr

/-- Where bit `i` lives: word `i >> wordShift`, sub-position `i & wordMask` (R33). -/
def bitPlace (w : Width) (i : Nat) : Place := ⟨i >>> wordShift w, i &&& wordMask w⟩

/-- Where counter `i` lives: word `i >> counterShift`, slot within word `i & counterMask` (R34). -/
def counterPlace (w : Width) (i : Nat) : Place := ⟨i >>> counterShift w, i &&& counterMask w⟩

/-- `~x` of a `W`-bit value, a `W`-bit value (R14). -/
def notW (w : Width) (x : Word) : Word := ~~~x &&& BitVec.ofNat 64 (2 ^ w.bits - 1)

/-- The word whose one set bit is sub-position `s`, the bit of weight `2^s` (R33, 92 D13). -/
def bitWord (s : Nat) : Word := (1 : Word) <<< s

/-- `(word >> s) & 1`, the flag at sub-position `s` (R33, R64). -/
def bitAt (word : Word) (s : Nat) : Word := (word >>> s) &&& 1

/-- `sh = (S - 1 - b) * 4`: counter `b` of a word occupies its bits `[sh+3 : sh]` (R34). -/
def nibbleShift (w : Width) (b : Nat) : Nat := (countersPerWord w - 1 - b) * 4

/-- `counterAt(word, b)` (R72). -/
def counterAt (w : Width) (word : Word) (b : Nat) : BitVec 4 :=
  ((word >>> nibbleShift w b) &&& 0xF).setWidth 4

/-- `withCounterSet(word, b, v)` (R73). -/
def withCounterSet (w : Width) (word : Word) (b : Nat) (v : BitVec 4) : Word :=
  (word &&& notW w ((0xF : Word) <<< nibbleShift w b)) ||| (v.setWidth 64 <<< nibbleShift w b)

/-- A check of R90: the error it raises, or nothing. -/
def check (ok : Prop) [Decidable ok] (e : Error) : Except Error Unit :=
  if ok then .ok () else .error e

/-- The slot a handle names, or IllegalCommand where the handle is at or above `NV` (R83 items 3 and 4, R90 step 3). -/
def State.slotAt (s : State) (h : Handle) : Except Error Slot :=
  match s.slots[h.toNat]? with
  | some v => .ok v
  | none => .error .illegalCommand

/-- The slot a handle names, checked to be of kind `k` (R83 items 3 and 5, R90 steps 3 and 4). -/
def State.slotOfKind (s : State) (k : Kind) (h : Handle) : Except Error Slot := do
  let v ← s.slotAt h
  check (v.kind = k) .illegalCommand
  .ok v

/-- The operand of a single-bit command: a BIT slot and an index below `len * W` (R63, R82). -/
def State.bitOperand (s : State) (h : Handle) (i : Arg) : Except Error Place := do
  let v ← s.slotOfKind .bit h
  check (i.toNat < v.len * s.width.bits) .outOfRange
  .ok (bitPlace s.width i.toNat)

/-- The operand of a single-counter command: a CTR slot and an index below `len * S` (R75, R82). -/
def State.counterOperand (s : State) (h : Handle) (i : Arg) : Except Error Place := do
  let v ← s.slotOfKind .ctr h
  check (i.toNat < v.len * countersPerWord s.width) .outOfRange
  .ok (counterPlace s.width i.toNat)

/-- The operand of `RD_WORD`: an allocated slot and a word index below `len` (R70, R82). -/
def State.wordOperand (s : State) (h : Handle) (j : Arg) : Except Error Nat := do
  let v ← s.slotAt h
  check (v.kind ≠ .none) .illegalCommand
  check (j.toNat < v.len) .outOfRange
  .ok (j.toNat)

/-- The operands of `BV_OR` and `BV_AND`: both handles, then both kinds, then the word counts (R66, R84, R90). -/
def State.pairOperand (s : State) (vd vs : Handle) : Except Error (Slot × Slot) := do
  let v ← s.slotAt vd
  let u ← s.slotAt vs
  check (v.kind = .bit) .illegalCommand
  check (u.kind = .bit) .illegalCommand
  check (v.len = u.len) .incompatibleSize
  .ok (v, u)

/-- The operands of `BV_NEW` and `CV_NEW`: a handle below `NV`, whatever the slot's kind, and a word count of at most
`MAX_WORDS` (R62, R85). -/
def State.newOperand (s : State) (h : Handle) (n : Arg) : Except Error Nat := do
  let _ ← s.slotAt h
  check (n.toNat ≤ s.maxWords) .capacityExceeded
  .ok (n.toNat)

end Sys2Proof.Machine
end

