-- ==== Sys2Proof/Machine/Ops.lean ====
section
/-! DEFINITION. The operations the commands share: responding, raising an error (the block's only exception, R89, R92)
and reset, its only return (R99); reads and writes of storage words (R15); whole-slot writes; the port (R54, R55). -/
namespace Sys2Proof.Machine

/-- `respond(status, result)`: the response registers take the command's response (R16, R25). -/
def State.respond (s : State) (status : BitVec 4) (result : BitVec 64) : State :=
  { s with status := status, result := result }

/-- `raise E`: the one exception entry of the block (R89). A fatal error sets FAULTED and FAULT_CODE; every error
responds with its code and RESULT 0; no slot changes. There is no handler, saved register or mode (R92). -/
def State.raise (s : State) (e : Error) : State :=
  if e.fatal then { s with faulted := true, faultCode := e.code, status := e.code, result := 0 }
  else s.respond e.code 0

/-- Reset, the only way out of the fault state (R92, R99). The instance's parameters stay (R7), and so do the two
fields that are not the block's (notes/assumptions/12.md). -/
def State.applyReset (s : State) : State :=
  { State.afterReset s.config with host := s.host, draws := s.draws }

/-- The frame of every command (R90): a command is refused while FAULTED = 1 (step 1, R87); otherwise its body either
raises the first error of its checks or gives the state the command leaves. -/
def State.perform (s : State) (body : Except Error State) : Host.Outcome State Fault Refusal :=
  if s.faulted then .next (s.respond statusFaulted (s.faultCode.setWidth 64))
  else
    match body with
    | .ok t => .next t
    | .error e => .next (s.raise e)

/-- `V[h] <- v`. -/
def State.setSlot (s : State) (h : Handle) (v : Slot) : State :=
  { s with slots := s.slots.set h.toNat v }

/-- `V[h].words <- words`, the kind staying. -/
def State.setWords (s : State) (h : Handle) (words : List Word) : State :=
  { s with slots := s.slots.modify h.toNat (fun v => { v with words := words }) }

/-- `MemRead((h, j), W)`: word `j` of slot `h` (R15). It is applied after the index checks only, so the value 0 for a
word that does not exist is never read (notes/assumptions/5.md). -/
def State.memRead (s : State) (h : Handle) (j : Nat) : Word :=
  match s.slots[h.toNat]? with
  | some v => v.words[j]?.getD 0
  | none => 0

/-- `MemWrite((h, j), W, x)`: word `j` of slot `h` becomes `x` (R15). -/
def State.memWrite (s : State) (h : Handle) (j : Nat) (x : Word) : State :=
  { s with slots := s.slots.modify h.toNat (fun v => { v with words := v.words.set j x }) }

/-- A fresh slot of `n` zero words (R62, R74). -/
def Slot.zeroed (k : Kind) (n : Nat) : Slot := ⟨k, List.replicate n 0⟩

/-- `NEW`: the slot's kind, length and contents are replaced (R62, R74, 92 D23). -/
def State.allocate (s : State) (k : Kind) (h : Handle) (n : Arg) : Except Error State := do
  let n ← s.newOperand h n
  .ok ((s.setSlot h (Slot.zeroed k n)).respond statusOk 0)

/-- `CLEAR`: every word of a slot of kind `k` becomes 0 (R68, R78). -/
def State.clearSlot (s : State) (k : Kind) (h : Handle) : Except Error State := do
  let v ← s.slotOfKind k h
  .ok ((s.setWords h (List.replicate v.len 0)).respond statusOk 0)

/-- `OR`/`AND`: each word of VD becomes `f` of it and the same word of VS; VS is read only (R48, R66, R67). -/
def State.combine (s : State) (f : Word → Word → Word) (vd vs : Handle) : Except Error State := do
  let (v, u) ← s.pairOperand vd vs
  .ok ((s.setWords vd (List.zipWith f v.words u.words)).respond statusOk 0)

/-- The flag at a place, read (R64). -/
def State.readBit (s : State) (h : Handle) (p : Place) : Word := bitAt (s.memRead h p.word) p.pos

/-- The flag at a place, set: `w | (1 << s)` (R63). -/
def State.setBit (s : State) (h : Handle) (p : Place) : State :=
  s.memWrite h p.word (s.memRead h p.word ||| bitWord p.pos)

/-- The counter at a place, read (R77). -/
def State.readCounter (s : State) (h : Handle) (p : Place) : BitVec 4 :=
  counterAt s.width (s.memRead h p.word) p.pos

/-- The counter at a place, replaced by `c`, its neighbours staying (R73, R75). -/
def State.writeCounter (s : State) (h : Handle) (p : Place) (c : BitVec 4) : State :=
  s.memWrite h p.word (withCounterSet s.width (s.memRead h p.word) p.pos c)

/-- The block accepts a command: it is the host's action no longer, and a response will be on offer (R55). -/
def State.accepted (s : State) (rest : List HostAction) : State :=
  { s with host := rest, port := .responding }

/-- The host takes the response: the response on offer is delivered, and the block is ready again (R54, R55). With none
on offer nothing is delivered, but the rising edge had `rst = 0`, so a block just reset raises `cmd_ready` (R99;
DEDUCED, safe: notes/assumptions/10.md). -/
def State.deliver (s : State) : State :=
  match s.port with
  | .responding => { s with port := .ready }
  | .ready => s
  | .inReset => { s with port := .ready }

/-- A rising edge with `rst = 0` and no transaction: after reset the block raises `cmd_ready` (R99); otherwise nothing
happens. -/
def State.idle (s : State) : State :=
  match s.port with
  | .inReset => { s with port := .ready }
  | .ready => s
  | .responding => s

/-- The block's output signals (R54): the handshake outputs are the port's phase, the response is STATUS and RESULT,
and `fault` is a level equal to FAULTED (R91). -/
def State.outputs (s : State) : Outputs where
  cmdReady  := s.port == .ready
  rspValid  := s.port == .responding
  rspStatus := s.status
  rspResult := s.result
  fault     := s.faulted

/-- The command the block gets where the host presented `first` and then the values `later` before it was accepted:
any one of them (R103, 93 I13), chosen by the free value `choice`. -/
def presentedCommand (choice : Nat) (first : Command) (later : List Command) : Command :=
  ((first :: later)[choice % (later.length + 1)]?).getD first

end Sys2Proof.Machine
end

