-- ==== Sys2Proof/Machine/Alignment.lean ====
section
/-! DEFINITION. `ALIGN_UP` (42_alignment.md) and the reserved encoding (R56). -/
namespace Sys2Proof.Machine

/-- `m` rounded up to a multiple of `W`: `m` itself where its low bits are 0, else the low bits masked off and one word
added, an exact sum; AlignOverflow where that does not fit 64 bits (R80, R86). -/
def alignUp (w : Width) (m : Arg) : Except Error (BitVec 64) :=
  if m &&& BitVec.ofNat 64 (wordMask w) = 0 then .ok m
  else
    let r := (m &&& ~~~(BitVec.ofNat 64 (wordMask w))).toNat + w.bits
    if 2 ^ 64 ≤ r then .error .alignOverflow else .ok (BitVec.ofNat 64 r)

/-- `ALIGN_UP m`: no slot is read or written (R80). -/
def execAlignUp (m : Arg) (s : State) : Host.Outcome State Fault Refusal :=
  s.perform do
    let r ← alignUp s.width m
    .ok (s.respond statusOk r)

/-- A reserved encoding raises IllegalCommand (R56, R83 items 1 and 2, R90 step 2). The block records nothing of the
header (R89). -/
def execReserved (_hdr : Hdr) (s : State) : Host.Outcome State Fault Refusal :=
  s.perform (.error .illegalCommand)

end Sys2Proof.Machine
end

