-- ==== Sys2Proof/Machine/BitVector.lean ====
section
/-! DEFINITION. The bit-vector commands and `RD_WORD` (40_bit_vector.md). -/
namespace Sys2Proof.Machine

/-- `BV_NEW vD, n` (R62). -/
def execBvNew (vd : Handle) (n : Arg) (s : State) : Host.Outcome State Fault Refusal :=
  s.perform (s.allocate .bit vd n)

/-- `BV_SET vD, i` (R63). -/
def execBvSet (vd : Handle) (i : Arg) (s : State) : Host.Outcome State Fault Refusal :=
  s.perform do
    let p ← s.bitOperand vd i
    .ok ((s.setBit vd p).respond statusOk 0)

/-- `BV_GET vD, i` (R64). -/
def execBvGet (vd : Handle) (i : Arg) (s : State) : Host.Outcome State Fault Refusal :=
  s.perform do
    let p ← s.bitOperand vd i
    .ok (s.respond statusOk (s.readBit vd p))

/-- `BV_GETSET vD, i`: the response is the flag before the set (R65, R45). -/
def execBvGetset (vd : Handle) (i : Arg) (s : State) : Host.Outcome State Fault Refusal :=
  s.perform do
    let p ← s.bitOperand vd i
    .ok ((s.setBit vd p).respond statusOk (s.readBit vd p))

/-- `BV_OR vD, vS` (R66). -/
def execBvOr (vd vs : Handle) (s : State) : Host.Outcome State Fault Refusal :=
  s.perform (s.combine (fun x y => x ||| y) vd vs)

/-- `BV_AND vD, vS` (R67). -/
def execBvAnd (vd vs : Handle) (s : State) : Host.Outcome State Fault Refusal :=
  s.perform (s.combine (fun x y => x &&& y) vd vs)

/-- `BV_CLEAR vD` (R68). -/
def execBvClear (vd : Handle) (s : State) : Host.Outcome State Fault Refusal :=
  s.perform (s.clearSlot .bit vd)

/-- `BV_ISEMPTY vD`: whether the vector holds zero words, whatever its bits (R69). -/
def execBvIsempty (vd : Handle) (s : State) : Host.Outcome State Fault Refusal :=
  s.perform do
    let v ← s.slotOfKind .bit vd
    .ok (s.respond statusOk (if v.len = 0 then 1 else 0))

/-- `RD_WORD vD, j` (R70). -/
def execRdWord (vd : Handle) (j : Arg) (s : State) : Host.Outcome State Fault Refusal :=
  s.perform do
    let j ← s.wordOperand vd j
    .ok (s.respond statusOk (s.memRead vd j))

end Sys2Proof.Machine
end

