-- ==== Sys2Proof/Machine/CounterVector.lean ====
section
/-! DEFINITION. The counter-vector commands (41_counter_vector.md). -/
namespace Sys2Proof.Machine

/-- `CV_NEW vD, n` (R74). -/
def execCvNew (vd : Handle) (n : Arg) (s : State) : Host.Outcome State Fault Refusal :=
  s.perform (s.allocate .ctr vd n)

/-- `CV_INC vD, i`: one more, but a counter at 15 stays; OK either way (R75, R88). -/
def execCvInc (vd : Handle) (i : Arg) (s : State) : Host.Outcome State Fault Refusal :=
  s.perform do
    let p ← s.counterOperand vd i
    let c := s.readCounter vd p
    .ok ((if c = 15 then s else s.writeCounter vd p (c + 1)).respond statusOk 0)

/-- `CV_DEC vD, i`: one less, but a counter at 0 stays; OK either way (R76, R88). -/
def execCvDec (vd : Handle) (i : Arg) (s : State) : Host.Outcome State Fault Refusal :=
  s.perform do
    let p ← s.counterOperand vd i
    let c := s.readCounter vd p
    .ok ((if c = 0 then s else s.writeCounter vd p (c - 1)).respond statusOk 0)

/-- `CV_GET vD, i` (R77). -/
def execCvGet (vd : Handle) (i : Arg) (s : State) : Host.Outcome State Fault Refusal :=
  s.perform do
    let p ← s.counterOperand vd i
    .ok (s.respond statusOk ((s.readCounter vd p).setWidth 64))

/-- `CV_CLEAR vD` (R78). -/
def execCvClear (vd : Handle) (s : State) : Host.Outcome State Fault Refusal :=
  s.perform (s.clearSlot .ctr vd)

end Sys2Proof.Machine
end

