-- ==== Sys2Proof/Machine/Dispatch.lean ====
section
/-! DEFINITION. One arm per command: its meaning. -/
namespace Sys2Proof.Machine

/-- The effect of a decoded command on the state (R90). -/
def exec (i : Instr) (s : State) : Host.Outcome State Fault Refusal :=
  match i with
  | .bvNew vd n => Sys2Proof.Machine.execBvNew vd n s
  | .bvSet vd x => Sys2Proof.Machine.execBvSet vd x s
  | .bvGet vd x => Sys2Proof.Machine.execBvGet vd x s
  | .bvGetset vd x => Sys2Proof.Machine.execBvGetset vd x s
  | .bvOr vd vs => Sys2Proof.Machine.execBvOr vd vs s
  | .bvAnd vd vs => Sys2Proof.Machine.execBvAnd vd vs s
  | .bvClear vd => Sys2Proof.Machine.execBvClear vd s
  | .bvIsempty vd => Sys2Proof.Machine.execBvIsempty vd s
  | .cvNew vd n => Sys2Proof.Machine.execCvNew vd n s
  | .cvInc vd x => Sys2Proof.Machine.execCvInc vd x s
  | .cvDec vd x => Sys2Proof.Machine.execCvDec vd x s
  | .cvGet vd x => Sys2Proof.Machine.execCvGet vd x s
  | .cvClear vd => Sys2Proof.Machine.execCvClear vd s
  | .alignUp m => Sys2Proof.Machine.execAlignUp m s
  | .rdWord vd j => Sys2Proof.Machine.execRdWord vd j s
  | .reserved hdr => Sys2Proof.Machine.execReserved hdr s

end Sys2Proof.Machine
end

