-- ==== Sys2Proof/Machine/Step.lean ====
section
/-! DEFINITION. One step of the machine: the host's next action takes effect (R6, R41). -/
namespace Sys2Proof.Machine

/-- The block is offered a command. It accepts it where no response is on offer (R55) and performs it as one
indivisible step (R39); while a response is on offer the command waits, and so does everything after it (R107, 93 I14). -/
def State.offer (s : State) (c : Command) (rest : List HostAction) : Host.Outcome State Fault Refusal :=
  match s.port with
  | .responding => .fault .responsePending
  | .ready => exec (decode c) (s.accepted rest)
  | .inReset => exec (decode c) (s.accepted rest)

/-- One step: the host's next action. Reset is a step of its own between two commands (R100); with no action to come
the block is idle. -/
def step (s : State) : Host.Outcome State Fault Refusal :=
  match s.host with
  | [] => .next s.idle
  | .command c :: rest => s.offer c rest
  | .commandChanged first later :: rest =>
    State.offer { s with draws := s.draws + 1 }
      (presentedCommand (Config.presentedChoice s.draws) first later) rest
  | .takeResponse :: rest => .next { s.deliver with host := rest }
  | .reset :: rest => .next { s.applyReset with host := rest }

/-- `s` with a command placed as the host's next action, at a block that is ready for it: the very next step accepts
and runs it. The command's bits are numbered as `decodeTableWord` numbers them. -/
def State.withFetchWord (s : State) (nbits w : Nat) : State :=
  { s with port := .ready, host := .command (Command.ofNat (w % 2 ^ nbits)) :: s.host }

end Sys2Proof.Machine
end

