-- ==== Sys2Proof/Machine/Assembler.lean ====
section
/-! DEFINITION. The assembler syntax of R60: a mnemonic and the operands a command uses, in the order VD, VS, ARG, and
the listing of a command as `HDR:ARG`. A line is held as its mnemonic and operands; whether ARG was written in decimal or
in hexadecimal is no part of it (notes/assumptions/15.md). -/
namespace Sys2Proof.Machine

/-- An operand as written: a slot `v0` to `v15`, or a value of ARG (R60). -/
inductive AsmOperand where
  | slot (h : Handle)
  | imm (x : Arg)
deriving DecidableEq, Repr

/-- One line of assembler (R60). -/
structure AsmLine where
  mnemonic : String
  operands : List AsmOperand
deriving DecidableEq, Repr

/-- A command's line, in the forms of R60; the reserved encoding has none. -/
def disassemble : Instr → Option AsmLine
  | .bvNew vd n => some ⟨"BV_NEW", [.slot vd, .imm n]⟩
  | .bvSet vd i => some ⟨"BV_SET", [.slot vd, .imm i]⟩
  | .bvGet vd i => some ⟨"BV_GET", [.slot vd, .imm i]⟩
  | .bvGetset vd i => some ⟨"BV_GETSET", [.slot vd, .imm i]⟩
  | .bvOr vd vs => some ⟨"BV_OR", [.slot vd, .slot vs]⟩
  | .bvAnd vd vs => some ⟨"BV_AND", [.slot vd, .slot vs]⟩
  | .bvClear vd => some ⟨"BV_CLEAR", [.slot vd]⟩
  | .bvIsempty vd => some ⟨"BV_ISEMPTY", [.slot vd]⟩
  | .cvNew vd n => some ⟨"CV_NEW", [.slot vd, .imm n]⟩
  | .cvInc vd i => some ⟨"CV_INC", [.slot vd, .imm i]⟩
  | .cvDec vd i => some ⟨"CV_DEC", [.slot vd, .imm i]⟩
  | .cvGet vd i => some ⟨"CV_GET", [.slot vd, .imm i]⟩
  | .cvClear vd => some ⟨"CV_CLEAR", [.slot vd]⟩
  | .alignUp m => some ⟨"ALIGN_UP", [.imm m]⟩
  | .rdWord vd j => some ⟨"RD_WORD", [.slot vd, .imm j]⟩
  | .reserved _ => none

/-- A mnemonic's opcode and operand shape (R51, R60). -/
inductive AsmShape where
  | slotImm
  | slotSlot
  | slotOnly
  | immOnly
deriving DecidableEq, Repr

/-- The opcode and the operand shape of each mnemonic (R51, R60). -/
def mnemonicTable : List (String × BitVec 4 × AsmShape) :=
  [("BV_NEW", 0x0, .slotImm), ("BV_SET", 0x1, .slotImm), ("BV_GET", 0x2, .slotImm), ("BV_GETSET", 0x3, .slotImm),
   ("BV_OR", 0x4, .slotSlot), ("BV_AND", 0x5, .slotSlot), ("BV_CLEAR", 0x6, .slotOnly), ("BV_ISEMPTY", 0x7, .slotOnly)]
  ++ [("CV_NEW", 0x8, .slotImm), ("CV_INC", 0x9, .slotImm), ("CV_DEC", 0xA, .slotImm), ("CV_GET", 0xB, .slotImm),
   ("CV_CLEAR", 0xC, .slotOnly), ("ALIGN_UP", 0xD, .immOnly), ("RD_WORD", 0xE, .slotImm)]

/-- The command of a line: fields a command ignores are not written and assemble as 0 (R60). A line of no form of R60
has none. -/
def assemble (line : AsmLine) : Option Command :=
  match mnemonicTable.lookup line.mnemonic with
  | some (op, .slotImm) =>
    match line.operands with
    | [.slot vd, .imm x] => some ⟨mkHdr op vd 0, x⟩
    | _ => none
  | some (op, .slotSlot) =>
    match line.operands with
    | [.slot vd, .slot vs] => some ⟨mkHdr op vd vs, 0⟩
    | _ => none
  | some (op, .slotOnly) =>
    match line.operands with
    | [.slot vd] => some ⟨mkHdr op vd 0, 0⟩
    | _ => none
  | some (op, .immOnly) =>
    match line.operands with
    | [.imm x] => some ⟨mkHdr op 0 0, x⟩
    | _ => none
  | none => none

/-- `n` hexadecimal digits of `x`, capitals, the most significant first. -/
def hexDigits : Nat → Nat → List Char
  | 0, _ => []
  | n + 1, x =>
    hexDigits n (x / 16) ++ [if x % 16 < 10 then Char.ofNat (48 + x % 16) else Char.ofNat (55 + x % 16)]

end Sys2Proof.Machine

namespace Sys2Proof

/-- A listing's `HDR:ARG`, as `0x0001:0x0000000000000046` (R60). -/
def Command.listing (c : Command) : List Char :=
  ['0', 'x'] ++ Machine.hexDigits 4 c.hdr.toNat ++ [':', '0', 'x'] ++ Machine.hexDigits 16 c.arg.toNat

end Sys2Proof
end

