-- ==== Sys2Proof/Safety.lean ====
section
/-! DEFINITION. The terms claims use: what a state shows of its slots, bits and counters, written with division and
remainder and not with the machine's own shifts and masks; the responses of errors, written as records; frames; the
invariant; safe runs. -/
namespace Sys2Proof

/-- `S = W / 4` (R9). -/
def Width.counters (w : Width) : Nat := w.bits / 4

/-- The slot a command writes when it is performed (R38). -/
def Instr.dest : Instr → Option Handle
  | .bvNew vd _ => some vd
  | .bvSet vd _ => some vd
  | .bvGet _ _ => none
  | .bvGetset vd _ => some vd
  | .bvOr vd _ => some vd
  | .bvAnd vd _ => some vd
  | .bvClear vd => some vd
  | .bvIsempty _ => none
  | .cvNew vd _ => some vd
  | .cvInc vd _ => some vd
  | .cvDec vd _ => some vd
  | .cvGet _ _ => none
  | .cvClear vd => some vd
  | .alignUp _ => none
  | .rdWord _ _ => none
  | .reserved _ => none

/-- The slots a command names with a field it uses (R51). -/
def Instr.names : Instr → List Handle
  | .bvNew vd _ => [vd]
  | .bvSet vd _ => [vd]
  | .bvGet vd _ => [vd]
  | .bvGetset vd _ => [vd]
  | .bvOr vd vs => [vd, vs]
  | .bvAnd vd vs => [vd, vs]
  | .bvClear vd => [vd]
  | .bvIsempty vd => [vd]
  | .cvNew vd _ => [vd]
  | .cvInc vd _ => [vd]
  | .cvDec vd _ => [vd]
  | .cvGet vd _ => [vd]
  | .cvClear vd => [vd]
  | .alignUp _ => []
  | .rdWord vd _ => [vd]
  | .reserved _ => []

end Sys2Proof

namespace Sys2Proof.Machine

/-- The slot a handle names, if there is one (R18). -/
def State.slot? (s : State) (h : Handle) : Option Slot := s.slots[h.toNat]?

/-- The kind of the slot a handle names. -/
def State.kind? (s : State) (h : Handle) : Option Kind := (s.slot? h).map Slot.kind

/-- Word `j` of slot `h`, if there is one (R15). -/
def State.word? (s : State) (h : Handle) (j : Nat) : Option Word := (s.slot? h).bind (fun v => v.words[j]?)

/-- Flag `i` of slot `h`: bit `i mod W` of word `i div W` (R33, last sentence). -/
def State.bit? (s : State) (h : Handle) (i : Nat) : Option Bool :=
  (s.word? h (i / s.width.bits)).map (fun x => x.getLsbD (i % s.width.bits))

/-- Counter `i` of slot `h`: with `S` counters a word, the hexadecimal digit number `i mod S`, counted from the most
significant, of word `i div S` (R34). -/
def State.counter? (s : State) (h : Handle) (i : Nat) : Option Nat :=
  (s.word? h (i / Width.counters s.width)).map
    (fun x => x.toNat / 16 ^ (Width.counters s.width - 1 - i % Width.counters s.width) % 16)

/-- What a fatal error leaves (R89). -/
def State.fatalResponse (s : State) (code : BitVec 4) : State :=
  { s with faulted := true, faultCode := code, status := code, result := 0 }

/-- What a recoverable error leaves (R89). -/
def State.recoverableResponse (s : State) (code : BitVec 4) : State :=
  { s with status := code, result := 0 }

/-- What a command refused in the fault state leaves (R87). -/
def State.faultedResponse (s : State) : State :=
  { s with status := 0xF, result := s.faultCode.setWidth 64 }

/-- What a command that changes no slot leaves when it is performed with result `r` (R16). -/
def State.okResponse (s : State) (r : BitVec 64) : State :=
  { s with status := 0, result := r }

/-- The frame of a command that writes slot `h`: every other slot, the parameters, the fault state, the port and the
model's own fields stay. -/
structure SameButSlot (h : Handle) (s t : State) : Prop where
  width      : t.width = s.width
  maxWords   : t.maxWords = s.maxWords
  numVectors : t.numVectors = s.numVectors
  slots      : ∀ g, g ≠ h → t.slot? g = s.slot? g
  faulted    : t.faulted = s.faulted
  faultCode  : t.faultCode = s.faultCode
  port       : t.port = s.port
  host       : t.host = s.host
  draws      : t.draws = s.draws

/-- A command that writes slot `h` was performed: STATUS is OK, RESULT is `r`, and the frame holds. -/
def Completed (h : Handle) (r : BitVec 64) (s t : State) : Prop :=
  SameButSlot h s t ∧ t.status = 0 ∧ t.result = r

/-- The fault state is consistent: FAULT_CODE is 0 while FAULTED = 0 and the code of a fatal error otherwise (R24). -/
abbrev State.faultCodeOk (s : State) : Prop :=
  (s.faulted = false → s.faultCode = 0) ∧ (s.faulted = true → s.faultCode = 0x8 ∨ s.faultCode = 0x9)

/-- The invariant of the machine: legal parameters (R7, R10, R11), slots within R20 with words of `W` bits (R19), and a
consistent fault state (R24). -/
abbrev State.Inv (s : State) : Prop :=
  s.config.Legal ∧ Memory.wf s.width s.maxWords s.slots = true ∧ s.faultCodeOk

/-- A state from which the host can go on without a reset: FAULTED = 0 (R23). -/
abbrev State.Safe (s : State) : Prop := s.faulted = false

/-- `k` steps, stopping at the first stop. -/
def steps : Nat → State → Host.Outcome State Fault Refusal
  | 0, s => .next s
  | k + 1, s =>
    match step s with
    | .next t => steps k t
    | .fault r => .fault r
    | .refused r => .refused r

/-- A run of `k` steps that ends, without a stop, in a state that is safe. -/
def SafeRun (k : Nat) (s : State) : Prop := ∃ t, steps k s = .next t ∧ t.Safe

/-- The same command performed `n` times in a row. -/
def execTimes (i : Instr) : Nat → State → Host.Outcome State Fault Refusal
  | 0, s => .next s
  | n + 1, s =>
    match exec i s with
    | .next t => execTimes i n t
    | .fault r => .fault r
    | .refused r => .refused r

end Sys2Proof.Machine
end

