-- ==== Sys2Proof/Certificates/Slice0/Obligations.lean ====
section
/-! DEFINITION. The statements about the model, for the provers. Each docstring names the rules of spec/ it formalises.
What a slot shows is said through `State.slot?`, `word?`, `bit?` and `counter?` (Safety.lean), which know nothing of the
machine's shifts and masks. -/
open Sys2Proof Sys2Proof.Machine

/-! ## Encoding -/

/-- Decoding what the encoder writes gives the instruction back, every operand at every value of its field, the reserved
encodings among them (30_encoding.md). -/
def Obligations.DecodeOfEncodeIsIdentity : Prop :=
  ∀ i : Instr, i.wellFormed = true → decode (encode i) = i

/-- The opcode map of R51, over headers `HDR = (VS << 8) | (VD << 4) | OP` (R50), for every value of every field. -/
def Obligations.OpcodeMapDecodes : Prop :=
  ∀ (vd vs : Handle) (x : Arg),
    let hdr := fun op : Nat => BitVec.ofNat 16 (256 * vs.toNat + 16 * vd.toNat + op)
    (∀ op : BitVec 4, mkHdr op vd vs = hdr op.toNat) ∧
    decode ⟨hdr 0x0, x⟩ = .bvNew vd x ∧ decode ⟨hdr 0x1, x⟩ = .bvSet vd x ∧
    decode ⟨hdr 0x2, x⟩ = .bvGet vd x ∧ decode ⟨hdr 0x3, x⟩ = .bvGetset vd x ∧
    decode ⟨hdr 0x4, x⟩ = .bvOr vd vs ∧ decode ⟨hdr 0x5, x⟩ = .bvAnd vd vs ∧
    decode ⟨hdr 0x6, x⟩ = .bvClear vd ∧ decode ⟨hdr 0x7, x⟩ = .bvIsempty vd ∧
    decode ⟨hdr 0x8, x⟩ = .cvNew vd x ∧ decode ⟨hdr 0x9, x⟩ = .cvInc vd x ∧
    decode ⟨hdr 0xA, x⟩ = .cvDec vd x ∧ decode ⟨hdr 0xB, x⟩ = .cvGet vd x ∧
    decode ⟨hdr 0xC, x⟩ = .cvClear vd ∧ decode ⟨hdr 0xD, x⟩ = .alignUp x ∧
    decode ⟨hdr 0xE, x⟩ = .rdWord vd x ∧ decode ⟨hdr 0xF, x⟩ = .reserved (hdr 0xF)

/-- R56: a header is reserved exactly where RSV is not 0 or OP is 0xF; it then raises the fatal IllegalCommand; every
other header decodes to a command. -/
def Obligations.ReservedHeadersAreIllegal : Prop :=
  ∀ (hdr : Hdr) (x : Arg),
    (decode ⟨hdr, x⟩ = .reserved hdr ↔ hdr.toNat / 2 ^ 12 ≠ 0 ∨ hdr.toNat % 16 = 15) ∧
    (hdr.toNat / 2 ^ 12 = 0 → hdr.toNat % 16 ≠ 15 → ∀ h, decode ⟨hdr, x⟩ ≠ .reserved h) ∧
    (hdr.toNat / 2 ^ 12 ≠ 0 ∨ hdr.toNat % 16 = 15 →
      ∀ s : State, s.faulted = false → exec (decode ⟨hdr, x⟩) s = .next (s.fatalResponse 0x9) ∧
        exec (.reserved hdr) s = .next (s.fatalResponse 0x9))

/-- R57: the value of an ignored field changes nothing, in any state, not even which error is raised: VS of every
command but BV_OR and BV_AND, VD of ALIGN_UP, and ARG of BV_OR, BV_AND, BV_CLEAR, BV_ISEMPTY and CV_CLEAR. -/
def Obligations.IgnoredFieldsChangeNothing : Prop :=
  ∀ (op vd vs vd' vs' : BitVec 4) (x x' : Arg) (s : State),
    let hdr := fun d g : Handle => BitVec.ofNat 16 (256 * g.toNat + 16 * d.toNat + op.toNat)
    (op ≠ 0x4 → op ≠ 0x5 → exec (decode ⟨hdr vd vs', x⟩) s = exec (decode ⟨hdr vd vs, x⟩) s) ∧
    (op = 0xD → exec (decode ⟨hdr vd' vs', x⟩) s = exec (decode ⟨hdr vd vs, x⟩) s) ∧
    (op = 0x4 ∨ op = 0x5 ∨ op = 0x6 ∨ op = 0x7 ∨ op = 0xC →
      exec (decode ⟨hdr vd vs, x'⟩) s = exec (decode ⟨hdr vd vs, x⟩) s)

/-- A sanity statement: words written out from the encodings of the spec's examples decode to their commands. -/
def Obligations.ExampleWordsDecode : Prop :=
  decode ⟨0x0000, 0x2⟩ = .bvNew 0 2 ∧ decode ⟨0x0001, 0x46⟩ = .bvSet 0 70 ∧
  decode ⟨0x0104, 0x0⟩ = .bvOr 0 1 ∧ decode ⟨0x0018, 0x1⟩ = .cvNew 1 1 ∧
  decode ⟨0x000D, 0x3921A36E⟩ = .alignUp 958505838 ∧ decode ⟨0x001E, 0x0⟩ = .rdWord 1 0 ∧
  decode ⟨0x0FFD, 0x1⟩ = .alignUp 1 ∧ decode ⟨0x1002, 0x0⟩ = .reserved 0x1002

/-- A line of assembler for a command assembles to the command's encoding, so that fields it ignores assemble as 0
(R60, less the spelling of numbers: the model's choice, notes/assumptions/15.md). -/
def Obligations.AssemblerAgreesWithEncoder : Prop :=
  ∀ (i : Instr) (line : AsmLine), disassemble i = some line → assemble line = some (encode i)

/-! ## The step, the ports and reset -/

/-- A command offered to a block with no response on offer is decoded and performed in the one step that accepts it; its
response is then on offer. (The host's list and the port's phase are the model's: notes/assumptions/6.md, 7.md.) -/
def Obligations.StepRunsTheOfferedCommand : Prop :=
  ∀ (s : State) (c : Command) (rest : List HostAction),
    s.host = .command c :: rest → s.port ≠ .responding →
    step s = exec (decode c) { s with host := rest, port := .responding }

/-- What `withFetchWord` places is what the very next step runs. Placing a command at all, and the layout of its bits as
one number, are the model's choice, not the spec's: notes/assumptions/6.md, 14.md. -/
def Obligations.StepRunsThePlacedWord : Prop :=
  ∀ (s : State) (nbits w : Nat) (i : Instr),
    decodeTableWord nbits w = some i →
    step (s.withFetchWord nbits w) = exec i { s with port := .responding }

/-- R107: every accepted command completes and gets its response, whatever its operands and the state, a faulted one
among them; and while a response is not taken, a later command waits (93 I14: stuck, no step; the
form of the stop is the model's: notes/assumptions/8.md). -/
def Obligations.EveryAcceptedCommandCompletes : Prop :=
  (∀ (i : Instr) (s : State), ∃ t, exec i s = .next t) ∧
  (∀ (s : State) (c : Command) (rest : List HostAction),
    s.host = .command c :: rest → s.outputs.rspValid = false →
    ∃ t, step s = .next t ∧ t.host = rest ∧ t.outputs.rspValid = true) ∧
  (∀ (s : State) (c : Command) (rest : List HostAction),
    s.host = .command c :: rest → s.outputs.rspValid = true → step s = .fault .responsePending)

/-- One command at a time: while a response is on offer `cmd_ready` is 0, and a step either has no host action to do and
changes nothing at all, or takes the response and changes only the port and the list, or is a reset. So the response
stays as it is until it is delivered (R54, R55). (The level is the model's: notes/assumptions/7.md.) -/
def Obligations.ResponseIsHeldUntilTaken : Prop :=
  ∀ s t : State, s.port = .responding → step s = .next t →
    s.outputs.cmdReady = false ∧ s.outputs.rspValid = true ∧
    ((s.host = [] ∧ t = s) ∨ (∃ rest, s.host = .takeResponse :: rest ∧ t = { s with port := .ready, host := rest }) ∨
      ∃ rest, s.host = .reset :: rest ∧ t.outputs.rspValid = false ∧ t.port = .inReset)

/-- A step that performs no command and is no reset always answers a next state, and leaves STATUS, RESULT, the fault
state and the slots as they are, in every state and every phase of the port, and so does any number of such steps: STATUS
and RESULT hold the response of the last command until the next one (R25). What such a step does to the port is the
model's: notes/assumptions/6.md, 7.md, 10.md. -/
def Obligations.ResponseIsKeptUntilTheNextCommand : Prop :=
  (∀ s : State, s.host = [] →
    step s = .next { s with port := if s.port = .inReset then .ready else s.port }) ∧
  (∀ (s : State) (rest : List HostAction), s.host = .takeResponse :: rest →
    step s = .next { s with port := .ready, host := rest }) ∧
  (∀ (k : Nat) (s : State), (∀ a ∈ s.host.take k, a = .takeResponse) →
    ∃ t, steps k s = .next t ∧ t.status = s.status ∧ t.result = s.result ∧ t.slots = s.slots ∧
      t.faulted = s.faulted ∧ t.faultCode = s.faultCode ∧ t.config = s.config ∧ t.host = s.host.drop k)

/-- A command the host changed while it was offered is performed as one of the values presented, whichever value the
free choice has (R103's last sentence, 93 I13). The draw counter is the model's: notes/assumptions/9.md. -/
def Obligations.ChangedCommandIsOneOfThosePresented : Prop :=
  ∀ (s : State) (first : Command) (later : List Command) (rest : List HostAction),
    s.host = .commandChanged first later :: rest →
    ∃ c, c ∈ first :: later ∧ step s = step { s with host := .command c :: rest, draws := s.draws + 1 }

/-- R31: the state of every instance after reset. -/
def Obligations.ResetValues : Prop :=
  ∀ c : Config,
    (State.afterReset c).numVectors = c.numVectors ∧
    (∀ h : Handle, h.toNat < c.numVectors → (State.afterReset c).slot? h = some ⟨.none, []⟩) ∧
    (State.afterReset c).faulted = false ∧ (State.afterReset c).faultCode = 0x0 ∧
    (State.afterReset c).status = 0x0 ∧ (State.afterReset c).result = 0

/-- R99: a reset step gives every slot NONE with `len` 0, the fault state and the response registers 0, `cmd_ready` 0
and `rsp_valid` 0, from any state, a response on offer being withdrawn; then the block raises `cmd_ready` and accepts
commands; no other step clears FAULTED. The parameters stay. (The host's list and the port's phase are the model's:
notes/assumptions/6.md, 7.md.) -/
def Obligations.ResetStep : Prop :=
  (∀ (s : State) (rest : List HostAction), s.host = .reset :: rest →
    ∃ t, step s = .next t ∧ t.config = s.config ∧
      (∀ h : Handle, h.toNat < s.numVectors → t.slot? h = some ⟨.none, []⟩) ∧
      t.faulted = false ∧ t.faultCode = 0x0 ∧ t.status = 0x0 ∧ t.result = 0 ∧
      t.outputs.cmdReady = false ∧ t.outputs.rspValid = false ∧ t.host = rest ∧
      (rest = [] → step t = .next { t with port := .ready }) ∧
      (∀ c rest', rest = .command c :: rest' →
        step t = exec (decode c) { t with host := rest', port := .responding })) ∧
  (∀ s t : State, s.faulted = true → step s = .next t → t.faulted = false → ∃ rest, s.host = .reset :: rest)

/-- No step changes the parameters of the instance: they are fixed for its life (R7, and the introduction of
10_state.md). That they stand in State is the model's choice: notes/assumptions/1.md. -/
def Obligations.ParametersAreFixed : Prop :=
  ∀ s t : State, step s = .next t → t.config = s.config

/-! ## Invariants -/

/-- The invariant is kept by every step: the slot invariants of R20, words of `W` bits (R19), legal parameters, a
consistent fault state (R24). -/
def Obligations.InvariantKeptByEveryStep : Prop :=
  ∀ s t : State, s.Inv → step s = .next t → t.Inv

/-- The invariant holds after reset, in every legal instance. -/
def Obligations.InvariantAfterReset : Prop :=
  (∀ c : Config, c.Legal → (State.afterReset c).Inv) ∧ State.reset.Inv

/-! ## Errors and the fault state -/

/-- R87: while FAULTED = 1 every command is refused, and only STATUS and RESULT are written. -/
def Obligations.FaultedBlockRefusesEveryCommand : Prop :=
  ∀ (i : Instr) (s : State), s.faulted = true →
    exec i s = .next { s with status := 0xF, result := s.faultCode.setWidth 64 }

/-- R23: FAULTED is 1 after a fatal error, stays 1 until reset, and no command is performed meanwhile. -/
def Obligations.FaultIsStickyUntilReset : Prop :=
  (∀ (i : Instr) (s t : State), exec i s = .next t → t.status = 0x8 ∨ t.status = 0x9 → t.faulted = true) ∧
  (∀ s t : State, s.faulted = true → (∀ rest, s.host ≠ .reset :: rest) → step s = .next t →
    t.faulted = true ∧ t.faultCode = s.faultCode ∧ t.slots = s.slots)

/-- R24: FAULT_CODE is the code of the fatal error that set FAULTED and 0 while FAULTED = 0; it is written when FAULTED
goes from 0 to 1 and then stays until reset; the `fault` output is FAULTED; a refused command reports it in RESULT. -/
def Obligations.FaultCodeHoldsTheFatalCode : Prop :=
  ∀ s t : State, step s = .next t →
    ((s.faulted = false → s.faultCode = 0) → t.faulted = false → t.faultCode = 0) ∧
    (s.faulted = false → t.faulted = true →
      t.faultCode = t.status ∧ (t.faultCode = 0x8 ∨ t.faultCode = 0x9)) ∧
    (s.faulted = true → t.faulted = true → t.faultCode = s.faultCode) ∧
    t.outputs.fault = t.faulted ∧
    (∀ rest, (∃ c, s.host = .command c :: rest) ∨ (∃ c later, s.host = .commandChanged c later :: rest) →
      s.faulted = true → t.result.toNat = s.faultCode.toNat)

/-- FAULT_CODE keeps the code of the first fatal error, and no slot changes, over any number of steps without a reset
(60_exceptions.md, Nesting). -/
def Obligations.FirstFatalCodeKeptOverRuns : Prop :=
  ∀ (k : Nat) (s t : State), s.faulted = true → (∀ a ∈ s.host.take k, a ≠ .reset) →
    steps k s = .next t →
    t.faulted = true ∧ t.faultCode = s.faultCode ∧ t.slots = s.slots

/-- R89: a recoverable error writes STATUS and RESULT only; a fatal error also sets FAULTED and FAULT_CODE, no slot
changes, and every later command is refused. -/
def Obligations.ErrorEffects : Prop :=
  ∀ (i : Instr) (s t : State), s.faulted = false → exec i s = .next t →
    (t.status = 0x1 ∨ t.status = 0x2 ∨ t.status = 0x3 → t = { s with status := t.status, result := 0 }) ∧
    (t.status = 0x8 ∨ t.status = 0x9 →
      t = { s with faulted := true, faultCode := t.status, status := t.status, result := 0 } ∧
      ∀ j : Instr, exec j t = .next { t with status := 0xF, result := t.faultCode.setWidth 64 })

/-- The status codes a command can answer with, and RESULT beside each that is not OK (30_encoding.md sections 2). The
reserved codes are never produced. -/
def Obligations.OnlyListedStatusCodes : Prop :=
  ∀ (i : Instr) (s t : State), exec i s = .next t →
    (t.status = 0xF ↔ s.faulted = true) ∧
    (s.faulted = false →
      t.status = 0x0 ∨ t.status = 0x1 ∨ t.status = 0x2 ∨ t.status = 0x3 ∨ t.status = 0x8 ∨ t.status = 0x9) ∧
    (t.status ≠ 0x0 → t.status ≠ 0xF → t.result = 0)

/-- R82: OutOfRange is raised exactly where the index is at or beyond the bound of the slot, the handle and the kind
being right; it leaves FAULT_CODE 0x8 and records nothing of the index. -/
def Obligations.OutOfRangeExactlyWhen : Prop :=
  ∀ (i : Instr) (s t : State), s.faulted = false → exec i s = .next t →
    (t.status = 0x8 → t = s.fatalResponse 0x8) ∧
    (t.status = 0x8 ↔
      (∃ vd x v, (i = .bvSet vd x ∨ i = .bvGet vd x ∨ i = .bvGetset vd x) ∧
        s.slot? vd = some v ∧ v.kind = .bit ∧ v.len * s.width.bits ≤ x.toNat) ∨
      (∃ vd x v, (i = .cvInc vd x ∨ i = .cvDec vd x ∨ i = .cvGet vd x) ∧
        s.slot? vd = some v ∧ v.kind = .ctr ∧ v.len * (s.width.bits / 4) ≤ x.toNat) ∨
      (∃ vd x v, i = .rdWord vd x ∧ s.slot? vd = some v ∧ v.kind ≠ .none ∧ v.len ≤ x.toNat))

/-- R83: IllegalCommand is raised exactly by a reserved encoding, by a used handle at or above NV, and by a slot of the
wrong kind; it leaves FAULT_CODE 0x9. -/
def Obligations.IllegalCommandExactlyWhen : Prop :=
  (∀ c : Command, (∃ h, decode c = .reserved h) ↔ c.hdr.toNat / 2 ^ 12 ≠ 0 ∨ c.hdr.toNat % 16 = 15) ∧
  ∀ (i : Instr) (s t : State), s.faulted = false → exec i s = .next t →
    (t.status = 0x9 → t = s.fatalResponse 0x9) ∧
    (t.status = 0x9 ↔
      (∃ h, i = .reserved h) ∨
      (∃ h ∈ i.names, s.numVectors ≤ h.toNat) ∨
      (∃ vd x v, (i = .bvSet vd x ∨ i = .bvGet vd x ∨ i = .bvGetset vd x ∨ i = .bvClear vd ∨ i = .bvIsempty vd) ∧
        s.slot? vd = some v ∧ v.kind ≠ .bit) ∨
      (∃ vd vs v, (i = .bvOr vd vs ∨ i = .bvAnd vd vs) ∧
        (s.slot? vd = some v ∨ s.slot? vs = some v) ∧ v.kind ≠ .bit) ∨
      (∃ vd x v, (i = .cvInc vd x ∨ i = .cvDec vd x ∨ i = .cvGet vd x ∨ i = .cvClear vd) ∧
        s.slot? vd = some v ∧ v.kind ≠ .ctr) ∨
      (∃ vd x v, i = .rdWord vd x ∧ s.slot? vd = some v ∧ v.kind = .none))

/-- R84, R85, R86: when each recoverable error is raised. -/
def Obligations.RecoverableErrorsExactlyWhen : Prop :=
  ∀ (i : Instr) (s t : State), s.faulted = false → exec i s = .next t →
    (t.status = 0x1 ↔ ∃ vd vs v u, (i = .bvOr vd vs ∨ i = .bvAnd vd vs) ∧
      s.slot? vd = some v ∧ s.slot? vs = some u ∧ v.kind = .bit ∧ u.kind = .bit ∧ v.len ≠ u.len) ∧
    (t.status = 0x2 ↔ ∃ vd n, (i = .bvNew vd n ∨ i = .cvNew vd n) ∧
      vd.toNat < s.numVectors ∧ s.maxWords < n.toNat) ∧
    (t.status = 0x3 ↔ ∃ m : Arg, i = .alignUp m ∧ ¬ s.width.bits ∣ m.toNat ∧ 2 ^ 64 - s.width.bits < m.toNat)

/-! ## What every command leaves unchanged -/

/-- R18: a command changes at most one slot, the one its VD field names, and none where it is not performed. The number
of slots, the parameters and the port never change; the fault state changes on a fatal error only. -/
def Obligations.CommandChangesItsOwnSlotOnly : Prop :=
  ∀ (i : Instr) (s t : State), exec i s = .next t →
    t.config = s.config ∧ t.port = s.port ∧ t.host = s.host ∧ t.draws = s.draws ∧
    (∀ h, i.dest ≠ some h → t.slot? h = s.slot? h) ∧
    (t.status ≠ 0x0 → t.slots = s.slots) ∧ (i.dest = none → t.slots = s.slots) ∧
    (t.status ≠ 0x8 → t.status ≠ 0x9 → t.faulted = s.faulted ∧ t.faultCode = s.faultCode)

/-- Slots are independent storage: two states that agree on the parameters, the fault state and the slots a command
names give it the same response, the same fault state and the same slots of those names, whatever the other slots hold
(10_state.md section 1). -/
def Obligations.OtherSlotsAreNotRead : Prop :=
  ∀ (i : Instr) (s s' t t' : State),
    s'.config = s.config → s'.faulted = s.faulted → s'.faultCode = s.faultCode →
    (∀ h ∈ i.names, s'.slot? h = s.slot? h) →
    exec i s = .next t → exec i s' = .next t' →
    t'.status = t.status ∧ t'.result = t.result ∧ t'.faulted = t.faulted ∧ t'.faultCode = t.faultCode ∧
    ∀ h ∈ i.names, t'.slot? h = t.slot? h

/-! ## The commands, rule by rule -/

/-- The rule of `BV_NEW` (R62) or `CV_NEW` (R74), for the command `mk` that makes slots of kind `k`. -/
def NewRuleFor (mk : Handle → Arg → Instr) (k : Kind) : Prop :=
  ∀ (s : State) (vd : Handle) (n : Arg), s.faulted = false →
    (s.numVectors ≤ vd.toNat → exec (mk vd n) s = .next (s.fatalResponse 0x9)) ∧
    (vd.toNat < s.numVectors → s.maxWords < n.toNat →
      exec (mk vd n) s = .next (s.recoverableResponse 0x2)) ∧
    (vd.toNat < s.numVectors → n.toNat ≤ s.maxWords →
      ∃ t, exec (mk vd n) s = .next t ∧ Completed vd 0 s t ∧
        ∃ v, t.slot? vd = some v ∧ v.kind = k ∧ v.len = n.toNat ∧ ∀ j, j < n.toNat → v.words[j]? = some 0)

/-- R62 and R74: allocation replaces kind, length and contents of any slot, zero-filled. -/
def Obligations.NewRules : Prop :=
  NewRuleFor .bvNew .bit ∧ NewRuleFor .cvNew .ctr

/-- The index command `mk`, which takes a slot of kind `k` with `per` fields in a word, raises IllegalCommand on a bad
handle or kind, then OutOfRange on an index at or beyond the bound. -/
def IndexErrors (mk : Handle → Arg → Instr) (k : Kind) (per : Width → Nat) : Prop :=
  ∀ (s : State) (vd : Handle) (x : Arg), s.faulted = false →
    (s.kind? vd ≠ some k → exec (mk vd x) s = .next (s.fatalResponse 0x9)) ∧
    (∀ v, s.slot? vd = some v → v.kind = k → v.len * per s.width ≤ x.toNat →
      exec (mk vd x) s = .next (s.fatalResponse 0x8))

/-- The state after setting bit `x` of slot `vd`: that bit is 1, every other bit of the slot and every other word is as
before, and so are kind and length. -/
def BitSetIn (vd : Handle) (x : Nat) (s t : State) : Prop :=
  t.kind? vd = s.kind? vd ∧ (t.slot? vd).map Slot.len = (s.slot? vd).map Slot.len ∧
  t.bit? vd x = some true ∧ (∀ k, k ≠ x → t.bit? vd k = s.bit? vd k) ∧
  (∀ j, j ≠ x / s.width.bits → t.word? vd j = s.word? vd j) ∧
  (s.bit? vd x = some true → t.slot? vd = s.slot? vd)

/-- R63: BV_SET. -/
def Obligations.BvSetRule : Prop :=
  IndexErrors .bvSet .bit Width.bits ∧
  ∀ (s : State) (vd : Handle) (x : Arg) (v : Slot), s.faulted = false →
    s.slot? vd = some v → v.kind = .bit → x.toNat < v.len * s.width.bits →
    ∃ t, exec (.bvSet vd x) s = .next t ∧ Completed vd 0 s t ∧ BitSetIn vd x.toNat s t

/-- R64: BV_GET. -/
def Obligations.BvGetRule : Prop :=
  IndexErrors .bvGet .bit Width.bits ∧
  ∀ (s : State) (vd : Handle) (x : Arg) (v : Slot), s.faulted = false →
    s.slot? vd = some v → v.kind = .bit → x.toNat < v.len * s.width.bits →
    ∃ b, s.bit? vd x.toNat = some b ∧ exec (.bvGet vd x) s = .next (s.okResponse (if b then 1 else 0))

/-- R65: BV_GETSET answers the bit before the set, and sets it. -/
def Obligations.BvGetsetRule : Prop :=
  IndexErrors .bvGetset .bit Width.bits ∧
  ∀ (s : State) (vd : Handle) (x : Arg) (v : Slot), s.faulted = false →
    s.slot? vd = some v → v.kind = .bit → x.toNat < v.len * s.width.bits →
    ∃ b t, s.bit? vd x.toNat = some b ∧ exec (.bvGetset vd x) s = .next t ∧
      Completed vd (if b then 1 else 0) s t ∧ BitSetIn vd x.toNat s t

/-- The rule of `BV_OR` (R66) or `BV_AND` (R67), for the command `mk` that combines words by `f` and bits by `g`. -/
def CombineRuleFor (mk : Handle → Handle → Instr) (f : Word → Word → Word) (g : Bool → Bool → Bool) : Prop :=
  ∀ (s : State) (vd vs : Handle), s.faulted = false →
    (s.kind? vd ≠ some .bit ∨ s.kind? vs ≠ some .bit → exec (mk vd vs) s = .next (s.fatalResponse 0x9)) ∧
    (∀ v u, s.slot? vd = some v → s.slot? vs = some u → v.kind = .bit → u.kind = .bit →
      (v.len ≠ u.len → exec (mk vd vs) s = .next (s.recoverableResponse 0x1)) ∧
      (v.len = u.len → ∃ t, exec (mk vd vs) s = .next t ∧ Completed vd 0 s t ∧
        t.kind? vd = some .bit ∧ (t.slot? vd).map Slot.len = some v.len ∧
        (∀ j x y, s.word? vd j = some x → s.word? vs j = some y → t.word? vd j = some (f x y)) ∧
        (∀ i x y, s.bit? vd i = some x → s.bit? vs i = some y → t.bit? vd i = some (g x y)) ∧
        (vd = vs → t.slot? vd = s.slot? vd)))

/-- R66 and R67: BV_OR and BV_AND. -/
def Obligations.OrAndRules : Prop :=
  CombineRuleFor .bvOr (fun x y => x ||| y) or ∧ CombineRuleFor .bvAnd (fun x y => x &&& y) and

/-- The rule of `BV_CLEAR` (R68) or `CV_CLEAR` (R78), for the command `mk` on slots of kind `k`. -/
def ClearRuleFor (mk : Handle → Instr) (k : Kind) : Prop :=
  ∀ (s : State) (vd : Handle), s.faulted = false →
    (s.kind? vd ≠ some k → exec (mk vd) s = .next (s.fatalResponse 0x9)) ∧
    (∀ v, s.slot? vd = some v → v.kind = k →
      ∃ t, exec (mk vd) s = .next t ∧ Completed vd 0 s t ∧
        t.kind? vd = some k ∧ (t.slot? vd).map Slot.len = some v.len ∧ ∀ j, j < v.len → t.word? vd j = some 0)

/-- R68 and R78: BV_CLEAR and CV_CLEAR. -/
def Obligations.ClearRules : Prop :=
  ClearRuleFor .bvClear .bit ∧ ClearRuleFor .cvClear .ctr

/-- R69: BV_ISEMPTY answers from `len` alone. -/
def Obligations.BvIsemptyRule : Prop :=
  ∀ (s : State) (vd : Handle), s.faulted = false →
    (s.kind? vd ≠ some .bit → exec (.bvIsempty vd) s = .next (s.fatalResponse 0x9)) ∧
    (∀ v, s.slot? vd = some v → v.kind = .bit →
      exec (.bvIsempty vd) s = .next (s.okResponse (if v.len = 0 then 1 else 0)))

/-- R70: RD_WORD answers the packed word, zero-extended. -/
def Obligations.RdWordRule : Prop :=
  ∀ (s : State) (vd : Handle) (x : Arg), s.faulted = false →
    (s.kind? vd = none ∨ s.kind? vd = some .none → exec (.rdWord vd x) s = .next (s.fatalResponse 0x9)) ∧
    (∀ v, s.slot? vd = some v → v.kind ≠ .none →
      (v.len ≤ x.toNat → exec (.rdWord vd x) s = .next (s.fatalResponse 0x8)) ∧
      (x.toNat < v.len → ∃ w, s.word? vd x.toNat = some w ∧ exec (.rdWord vd x) s = .next (s.okResponse w) ∧
        (s.Inv → w.toNat < 2 ^ s.width.bits)))

/-- The rule of `CV_INC` (R75) or `CV_DEC` (R76), for the command `mk` that takes a counter's value `c` to `f c`: OK and
RESULT 0 whether or not it changed (R88); every other counter, word, the kind and the length stay. -/
def CountRuleFor (mk : Handle → Arg → Instr) (f : Nat → Nat) : Prop :=
  IndexErrors mk .ctr (fun w => w.bits / 4) ∧
  ∀ (s : State) (vd : Handle) (x : Arg) (v : Slot), s.faulted = false →
    s.slot? vd = some v → v.kind = .ctr → x.toNat < v.len * (s.width.bits / 4) →
    ∃ c t, s.counter? vd x.toNat = some c ∧ c ≤ 15 ∧ exec (mk vd x) s = .next t ∧ Completed vd 0 s t ∧
      t.kind? vd = some .ctr ∧ (t.slot? vd).map Slot.len = some v.len ∧
      t.counter? vd x.toNat = some (f c) ∧ (∀ k, k ≠ x.toNat → t.counter? vd k = s.counter? vd k) ∧
      (∀ j, j ≠ x.toNat / (s.width.bits / 4) → t.word? vd j = s.word? vd j) ∧
      (f c = c → t.slot? vd = s.slot? vd)

/-- R75: CV_INC adds 1 and saturates at 15. -/
def Obligations.CvIncRule : Prop := CountRuleFor .cvInc (fun c => min (c + 1) 15)

/-- R76: CV_DEC takes 1 away and saturates at 0. -/
def Obligations.CvDecRule : Prop := CountRuleFor .cvDec (fun c => c - 1)

/-- R77: CV_GET. -/
def Obligations.CvGetRule : Prop :=
  IndexErrors .cvGet .ctr (fun w => w.bits / 4) ∧
  ∀ (s : State) (vd : Handle) (x : Arg) (v : Slot), s.faulted = false →
    s.slot? vd = some v → v.kind = .ctr → x.toNat < v.len * (s.width.bits / 4) →
    ∃ c, s.counter? vd x.toNat = some c ∧ c ≤ 15 ∧
      exec (.cvGet vd x) s = .next (s.okResponse (BitVec.ofNat 64 c))

/-- R80: ALIGN_UP, with its overflow. -/
def Obligations.AlignUpRule : Prop :=
  ∀ (s : State) (m : Arg), s.faulted = false →
    (s.width.bits ∣ m.toNat → exec (.alignUp m) s = .next (s.okResponse m)) ∧
    (¬ s.width.bits ∣ m.toNat → m.toNat ≤ 2 ^ 64 - s.width.bits →
      exec (.alignUp m) s =
        .next (s.okResponse (BitVec.ofNat 64 (m.toNat / s.width.bits * s.width.bits + s.width.bits)))) ∧
    (¬ s.width.bits ∣ m.toNat → 2 ^ 64 - s.width.bits < m.toNat →
      exec (.alignUp m) s = .next (s.recoverableResponse 0x3))

/-! ## Laws -/

/-- The laws of the alignment command (42_alignment.md, its last section): where it answers OK with `r`, `r` is the
smallest multiple of `W` that is at least `m`, aligning it again gives it back, and `r / W` words are what `m` bits need. -/
def Obligations.AlignUpLaws : Prop :=
  ∀ (s t : State) (m : Arg), s.faulted = false → exec (.alignUp m) s = .next t → t.status = 0x0 →
    t.result.toNat % s.width.bits = 0 ∧ m.toNat ≤ t.result.toNat ∧ t.result.toNat < m.toNat + s.width.bits ∧
    (∀ q, s.width.bits ∣ q → m.toNat ≤ q → t.result.toNat ≤ q) ∧
    exec (.alignUp t.result) t = .next t ∧ (t.result = m ↔ m.toNat % s.width.bits = 0) ∧
    (∀ n, m.toNat ≤ n * s.width.bits ↔ t.result.toNat / s.width.bits ≤ n)

/-- The two identities of the packed-counter functions, and that the second makes a `W`-bit word and leaves the bits
outside its nibble (41_counter_vector.md, Packed-counter functions). -/
def Obligations.CounterPackingIdentities : Prop :=
  ∀ (w : Width) (x : Word) (b : Nat) (v : BitVec 4), b < w.bits / 4 →
    counterAt w (withCounterSet w x b v) b = v ∧
    (∀ b', b' < w.bits / 4 → b' ≠ b → counterAt w (withCounterSet w x b v) b' = counterAt w x b') ∧
    (withCounterSet w x b v).toNat < 2 ^ w.bits ∧
    (∀ p, p < w.bits → ¬ (4 * (w.bits / 4 - 1 - b) ≤ p ∧ p < 4 * (w.bits / 4 - 1 - b) + 4) →
      (withCounterSet w x b v).getLsbD p = x.getLsbD p)

/-- The nibbles of a word tile it: `S * 4 = W`, each lies inside the word, each bit of the word lies in exactly one
(20_memory.md section 1). -/
def Obligations.CounterNibblesTileTheWord : Prop :=
  ∀ w : Width, countersPerWord w * 4 = w.bits ∧ (∀ b, b < countersPerWord w → nibbleShift w b + 4 ≤ w.bits) ∧
    ∀ p, p < w.bits → ∃ b, b < countersPerWord w ∧ ∀ b', b' < countersPerWord w →
      (nibbleShift w b' ≤ p ∧ p < nibbleShift w b' + 4 ↔ b' = b)

/-- The shifts and masks of R33 and R34 split an index into quotient and remainder, and an index in range names a word
of the slot (20_memory.md sections 1 and 2). -/
def Obligations.PlacesSplitTheIndex : Prop :=
  ∀ (w : Width) (i len : Nat),
    bitPlace w i = ⟨i / w.bits, i % w.bits⟩ ∧ counterPlace w i = ⟨i / (w.bits / 4), i % (w.bits / 4)⟩ ∧
    (i < len * w.bits ↔ (bitPlace w i).word < len) ∧ (i < len * (w.bits / 4) ↔ (counterPlace w i).word < len)

/-- The first three laws of the bit-vector commands: a bit set reads 1; setting it changes no other bit of any slot;
BV_GETSET leaves the slots of BV_SET and answers what BV_GET would (40_bit_vector.md, Laws). -/
def Obligations.SetThenGetLaws : Prop :=
  ∀ (s : State) (vd : Handle) (x : Arg) (v : Slot), s.faulted = false →
    s.slot? vd = some v → v.kind = .bit → x.toNat < v.len * s.width.bits →
    ∃ t t' r : State, exec (.bvSet vd x) s = .next t ∧ exec (.bvGetset vd x) s = .next t' ∧ exec (.bvGet vd x) s = .next r ∧
      exec (.bvGet vd x) t = .next (t.okResponse 1) ∧ exec (.bvGet vd x) t' = .next (t'.okResponse 1) ∧
      exec (.bvGetset vd x) t' = .next (t'.okResponse 1) ∧
      (∀ (g : Handle) (k : Nat), (g, k) ≠ (vd, x.toNat) → t.bit? g k = s.bit? g k) ∧
      t'.slots = t.slots ∧ t'.result = r.result

/-- The other laws of the bit-vector commands: after BV_CLEAR every bit in range reads 0; BV_OR and BV_AND are
commutative in their effect (40_bit_vector.md, Laws). -/
def Obligations.ClearAndCommuteLaws : Prop :=
  (∀ (s t : State) (vd : Handle) (x : Arg) (v : Slot), s.faulted = false →
    s.slot? vd = some v → v.kind = .bit → x.toNat < v.len * s.width.bits →
    exec (.bvClear vd) s = .next t → exec (.bvGet vd x) t = .next (t.okResponse 0)) ∧
  (∀ (s t t' : State) (a b : Handle), s.kind? a = some .bit → s.kind? b = some .bit → s.faulted = false →
    (s.slot? a).map Slot.len = (s.slot? b).map Slot.len →
    (exec (.bvOr a b) s = .next t → exec (.bvOr b a) s = .next t' → t.slot? a = t'.slot? b) ∧
    (exec (.bvAnd a b) s = .next t → exec (.bvAnd b a) s = .next t' → t.slot? a = t'.slot? b))

/-- `n` increments in a row take a counter from `c` to `min (c + n) 15`, `n` decrements to `c - n`, and every other
counter of every slot stays; the pairs undo each other away from the ends (41_counter_vector.md, Laws). -/
def Obligations.CountersSaturateOverRuns : Prop :=
  ∀ (s : State) (vd : Handle) (x : Arg) (c : Nat), s.faulted = false → s.kind? vd = some .ctr →
    s.counter? vd x.toNat = some c →
    (∀ n, ∃ t, execTimes (.cvInc vd x) n s = .next t ∧ t.counter? vd x.toNat = some (min (c + n) 15) ∧
      ∀ (g : Handle) (k : Nat), (g, k) ≠ (vd, x.toNat) → t.counter? g k = s.counter? g k) ∧
    (∀ n, ∃ t, execTimes (.cvDec vd x) n s = .next t ∧ t.counter? vd x.toNat = some (c - n) ∧
      ∀ (g : Handle) (k : Nat), (g, k) ≠ (vd, x.toNat) → t.counter? g k = s.counter? g k) ∧
    (∃ t u, exec (.cvInc vd x) s = .next t ∧ exec (.cvDec vd x) t = .next u ∧
      u.counter? vd x.toNat = some (if c < 15 then c else 14)) ∧
    (∃ t u, exec (.cvDec vd x) s = .next t ∧ exec (.cvInc vd x) t = .next u ∧
      u.counter? vd x.toNat = some (if 0 < c then c else 1))

/-- Repeating a set, a clear, an OR or AND with the same source, or an allocation leaves the slots as one of them does
(20_memory.md section 2, idempotency). -/
def Obligations.IdempotentCommands : Prop :=
  ∀ (i : Instr) (s t u : State),
    (∃ vd x, i = .bvSet vd x) ∨ (∃ vd, i = .bvClear vd ∨ i = .cvClear vd) ∨
      (∃ vd vs, i = .bvOr vd vs ∨ i = .bvAnd vd vs) ∨ (∃ vd n, i = .bvNew vd n ∨ i = .cvNew vd n) →
    exec i s = .next t → exec i t = .next u → u.slots = t.slots

/-- A whole-vector command does what the loop of single-word writes of its pseudocode does, in the order of the words:
for CLEAR, for OR and AND with VD = VS among them, and for NEW over a slot whose `n` words hold anything before
(40_bit_vector.md, 41_counter_vector.md, and the stale contents of 10_state.md section 5). -/
def Obligations.WholeVectorCommandsAreWordLoops : Prop :=
  ∀ (s : State) (vd vs : Handle) (v u : Slot), s.faulted = false → s.slot? vd = some v → s.slot? vs = some u →
    (v.kind = .bit → exec (.bvClear vd) s =
      .next (((List.range v.len).foldl (fun t j => t.memWrite vd j 0) s).okResponse 0)) ∧
    (v.kind = .ctr → exec (.cvClear vd) s =
      .next (((List.range v.len).foldl (fun t j => t.memWrite vd j 0) s).okResponse 0)) ∧
    (v.kind = .bit → u.kind = .bit → v.len = u.len →
      exec (.bvOr vd vs) s = .next (((List.range v.len).foldl
        (fun t j => t.memWrite vd j (t.memRead vd j ||| t.memRead vs j)) s).okResponse 0) ∧
      exec (.bvAnd vd vs) s = .next (((List.range v.len).foldl
        (fun t j => t.memWrite vd j (t.memRead vd j &&& t.memRead vs j)) s).okResponse 0)) ∧
    (∀ (n : Arg) (old : List Word), n.toNat ≤ s.maxWords → old.length = n.toNat →
      exec (.bvNew vd n) s = .next (((List.range n.toNat).foldl (fun t j => t.memWrite vd j 0)
        (s.setSlot vd ⟨.bit, old⟩)).okResponse 0) ∧
      exec (.cvNew vd n) s = .next (((List.range n.toNat).foldl (fun t j => t.memWrite vd j 0)
        (s.setSlot vd ⟨.ctr, old⟩)).okResponse 0))
end

