-- ==== Sys2Proof/Laws/State.lean ====
section
/-! SUPPORT. One lemma per field of `State` per shared update, true by `rfl` wherever the update is one record. -/
namespace Sys2Proof.Machine

variable (s : State)

/-! Responses -/

@[simp] theorem State.respond_width (st : BitVec 4) (r : BitVec 64) :
    (s.respond st r).width = s.width := rfl
@[simp] theorem State.respond_maxWords (st : BitVec 4) (r : BitVec 64) :
    (s.respond st r).maxWords = s.maxWords := rfl
@[simp] theorem State.respond_slots (st : BitVec 4) (r : BitVec 64) :
    (s.respond st r).slots = s.slots := rfl
@[simp] theorem State.respond_faulted (st : BitVec 4) (r : BitVec 64) :
    (s.respond st r).faulted = s.faulted := rfl
@[simp] theorem State.respond_faultCode (st : BitVec 4) (r : BitVec 64) :
    (s.respond st r).faultCode = s.faultCode := rfl
@[simp] theorem State.respond_status (st : BitVec 4) (r : BitVec 64) :
    (s.respond st r).status = st := rfl
@[simp] theorem State.respond_result (st : BitVec 4) (r : BitVec 64) :
    (s.respond st r).result = r := rfl
@[simp] theorem State.respond_port (st : BitVec 4) (r : BitVec 64) :
    (s.respond st r).port = s.port := rfl
@[simp] theorem State.respond_host (st : BitVec 4) (r : BitVec 64) :
    (s.respond st r).host = s.host := rfl
@[simp] theorem State.respond_draws (st : BitVec 4) (r : BitVec 64) :
    (s.respond st r).draws = s.draws := rfl

@[simp] theorem State.okResponse_width (r : BitVec 64) :
    (s.okResponse r).width = s.width := rfl
@[simp] theorem State.okResponse_maxWords (r : BitVec 64) :
    (s.okResponse r).maxWords = s.maxWords := rfl
@[simp] theorem State.okResponse_slots (r : BitVec 64) :
    (s.okResponse r).slots = s.slots := rfl
@[simp] theorem State.okResponse_faulted (r : BitVec 64) :
    (s.okResponse r).faulted = s.faulted := rfl
@[simp] theorem State.okResponse_faultCode (r : BitVec 64) :
    (s.okResponse r).faultCode = s.faultCode := rfl
@[simp] theorem State.okResponse_status (r : BitVec 64) :
    (s.okResponse r).status = 0 := rfl
@[simp] theorem State.okResponse_result (r : BitVec 64) :
    (s.okResponse r).result = r := rfl
@[simp] theorem State.okResponse_port (r : BitVec 64) :
    (s.okResponse r).port = s.port := rfl
@[simp] theorem State.okResponse_host (r : BitVec 64) :
    (s.okResponse r).host = s.host := rfl
@[simp] theorem State.okResponse_draws (r : BitVec 64) :
    (s.okResponse r).draws = s.draws := rfl

@[simp] theorem State.recoverableResponse_width (c : BitVec 4) :
    (s.recoverableResponse c).width = s.width := rfl
@[simp] theorem State.recoverableResponse_maxWords (c : BitVec 4) :
    (s.recoverableResponse c).maxWords = s.maxWords := rfl
@[simp] theorem State.recoverableResponse_slots (c : BitVec 4) :
    (s.recoverableResponse c).slots = s.slots := rfl
@[simp] theorem State.recoverableResponse_faulted (c : BitVec 4) :
    (s.recoverableResponse c).faulted = s.faulted := rfl
@[simp] theorem State.recoverableResponse_faultCode (c : BitVec 4) :
    (s.recoverableResponse c).faultCode = s.faultCode := rfl
@[simp] theorem State.recoverableResponse_status (c : BitVec 4) :
    (s.recoverableResponse c).status = c := rfl
@[simp] theorem State.recoverableResponse_result (c : BitVec 4) :
    (s.recoverableResponse c).result = 0 := rfl
@[simp] theorem State.recoverableResponse_port (c : BitVec 4) :
    (s.recoverableResponse c).port = s.port := rfl
@[simp] theorem State.recoverableResponse_host (c : BitVec 4) :
    (s.recoverableResponse c).host = s.host := rfl
@[simp] theorem State.recoverableResponse_draws (c : BitVec 4) :
    (s.recoverableResponse c).draws = s.draws := rfl

@[simp] theorem State.fatalResponse_width (c : BitVec 4) :
    (s.fatalResponse c).width = s.width := rfl
@[simp] theorem State.fatalResponse_maxWords (c : BitVec 4) :
    (s.fatalResponse c).maxWords = s.maxWords := rfl
@[simp] theorem State.fatalResponse_slots (c : BitVec 4) :
    (s.fatalResponse c).slots = s.slots := rfl
@[simp] theorem State.fatalResponse_faulted (c : BitVec 4) :
    (s.fatalResponse c).faulted = true := rfl
@[simp] theorem State.fatalResponse_faultCode (c : BitVec 4) :
    (s.fatalResponse c).faultCode = c := rfl
@[simp] theorem State.fatalResponse_status (c : BitVec 4) :
    (s.fatalResponse c).status = c := rfl
@[simp] theorem State.fatalResponse_result (c : BitVec 4) :
    (s.fatalResponse c).result = 0 := rfl
@[simp] theorem State.fatalResponse_port (c : BitVec 4) :
    (s.fatalResponse c).port = s.port := rfl
@[simp] theorem State.fatalResponse_host (c : BitVec 4) :
    (s.fatalResponse c).host = s.host := rfl
@[simp] theorem State.fatalResponse_draws (c : BitVec 4) :
    (s.fatalResponse c).draws = s.draws := rfl

@[simp] theorem State.faultedResponse_width :
    (s.faultedResponse).width = s.width := rfl
@[simp] theorem State.faultedResponse_maxWords :
    (s.faultedResponse).maxWords = s.maxWords := rfl
@[simp] theorem State.faultedResponse_slots :
    (s.faultedResponse).slots = s.slots := rfl
@[simp] theorem State.faultedResponse_faulted :
    (s.faultedResponse).faulted = s.faulted := rfl
@[simp] theorem State.faultedResponse_faultCode :
    (s.faultedResponse).faultCode = s.faultCode := rfl
@[simp] theorem State.faultedResponse_status :
    (s.faultedResponse).status = 0xF := rfl
@[simp] theorem State.faultedResponse_result :
    (s.faultedResponse).result = s.faultCode.setWidth 64 := rfl
@[simp] theorem State.faultedResponse_port :
    (s.faultedResponse).port = s.port := rfl
@[simp] theorem State.faultedResponse_host :
    (s.faultedResponse).host = s.host := rfl
@[simp] theorem State.faultedResponse_draws :
    (s.faultedResponse).draws = s.draws := rfl

/-! Storage -/

@[simp] theorem State.setSlot_width (h : Handle) (v : Slot) :
    (s.setSlot h v).width = s.width := rfl
@[simp] theorem State.setSlot_maxWords (h : Handle) (v : Slot) :
    (s.setSlot h v).maxWords = s.maxWords := rfl
@[simp] theorem State.setSlot_slots (h : Handle) (v : Slot) :
    (s.setSlot h v).slots = s.slots.set h.toNat v := rfl
@[simp] theorem State.setSlot_faulted (h : Handle) (v : Slot) :
    (s.setSlot h v).faulted = s.faulted := rfl
@[simp] theorem State.setSlot_faultCode (h : Handle) (v : Slot) :
    (s.setSlot h v).faultCode = s.faultCode := rfl
@[simp] theorem State.setSlot_status (h : Handle) (v : Slot) :
    (s.setSlot h v).status = s.status := rfl
@[simp] theorem State.setSlot_result (h : Handle) (v : Slot) :
    (s.setSlot h v).result = s.result := rfl
@[simp] theorem State.setSlot_port (h : Handle) (v : Slot) :
    (s.setSlot h v).port = s.port := rfl
@[simp] theorem State.setSlot_host (h : Handle) (v : Slot) :
    (s.setSlot h v).host = s.host := rfl
@[simp] theorem State.setSlot_draws (h : Handle) (v : Slot) :
    (s.setSlot h v).draws = s.draws := rfl

@[simp] theorem State.setWords_width (h : Handle) (ws : List Word) :
    (s.setWords h ws).width = s.width := rfl
@[simp] theorem State.setWords_maxWords (h : Handle) (ws : List Word) :
    (s.setWords h ws).maxWords = s.maxWords := rfl
@[simp] theorem State.setWords_slots (h : Handle) (ws : List Word) :
    (s.setWords h ws).slots = s.slots.modify h.toNat (fun v => { v with words := ws }) := rfl
@[simp] theorem State.setWords_faulted (h : Handle) (ws : List Word) :
    (s.setWords h ws).faulted = s.faulted := rfl
@[simp] theorem State.setWords_faultCode (h : Handle) (ws : List Word) :
    (s.setWords h ws).faultCode = s.faultCode := rfl
@[simp] theorem State.setWords_status (h : Handle) (ws : List Word) :
    (s.setWords h ws).status = s.status := rfl
@[simp] theorem State.setWords_result (h : Handle) (ws : List Word) :
    (s.setWords h ws).result = s.result := rfl
@[simp] theorem State.setWords_port (h : Handle) (ws : List Word) :
    (s.setWords h ws).port = s.port := rfl
@[simp] theorem State.setWords_host (h : Handle) (ws : List Word) :
    (s.setWords h ws).host = s.host := rfl
@[simp] theorem State.setWords_draws (h : Handle) (ws : List Word) :
    (s.setWords h ws).draws = s.draws := rfl

@[simp] theorem State.memWrite_width (h : Handle) (j : Nat) (x : Word) :
    (s.memWrite h j x).width = s.width := rfl
@[simp] theorem State.memWrite_maxWords (h : Handle) (j : Nat) (x : Word) :
    (s.memWrite h j x).maxWords = s.maxWords := rfl
@[simp] theorem State.memWrite_slots (h : Handle) (j : Nat) (x : Word) :
    (s.memWrite h j x).slots = s.slots.modify h.toNat (fun v => { v with words := v.words.set j x }) := rfl
@[simp] theorem State.memWrite_faulted (h : Handle) (j : Nat) (x : Word) :
    (s.memWrite h j x).faulted = s.faulted := rfl
@[simp] theorem State.memWrite_faultCode (h : Handle) (j : Nat) (x : Word) :
    (s.memWrite h j x).faultCode = s.faultCode := rfl
@[simp] theorem State.memWrite_status (h : Handle) (j : Nat) (x : Word) :
    (s.memWrite h j x).status = s.status := rfl
@[simp] theorem State.memWrite_result (h : Handle) (j : Nat) (x : Word) :
    (s.memWrite h j x).result = s.result := rfl
@[simp] theorem State.memWrite_port (h : Handle) (j : Nat) (x : Word) :
    (s.memWrite h j x).port = s.port := rfl
@[simp] theorem State.memWrite_host (h : Handle) (j : Nat) (x : Word) :
    (s.memWrite h j x).host = s.host := rfl
@[simp] theorem State.memWrite_draws (h : Handle) (j : Nat) (x : Word) :
    (s.memWrite h j x).draws = s.draws := rfl

/-! The port and reset -/

@[simp] theorem State.accepted_width (rest : List HostAction) :
    (s.accepted rest).width = s.width := rfl
@[simp] theorem State.accepted_maxWords (rest : List HostAction) :
    (s.accepted rest).maxWords = s.maxWords := rfl
@[simp] theorem State.accepted_slots (rest : List HostAction) :
    (s.accepted rest).slots = s.slots := rfl
@[simp] theorem State.accepted_faulted (rest : List HostAction) :
    (s.accepted rest).faulted = s.faulted := rfl
@[simp] theorem State.accepted_faultCode (rest : List HostAction) :
    (s.accepted rest).faultCode = s.faultCode := rfl
@[simp] theorem State.accepted_status (rest : List HostAction) :
    (s.accepted rest).status = s.status := rfl
@[simp] theorem State.accepted_result (rest : List HostAction) :
    (s.accepted rest).result = s.result := rfl
@[simp] theorem State.accepted_port (rest : List HostAction) :
    (s.accepted rest).port = .responding := rfl
@[simp] theorem State.accepted_host (rest : List HostAction) :
    (s.accepted rest).host = rest := rfl
@[simp] theorem State.accepted_draws (rest : List HostAction) :
    (s.accepted rest).draws = s.draws := rfl

@[simp] theorem State.applyReset_width :
    (s.applyReset).width = s.width := rfl
@[simp] theorem State.applyReset_maxWords :
    (s.applyReset).maxWords = s.maxWords := rfl
@[simp] theorem State.applyReset_slots :
    (s.applyReset).slots = List.replicate s.numVectors Slot.unallocated := rfl
@[simp] theorem State.applyReset_faulted :
    (s.applyReset).faulted = false := rfl
@[simp] theorem State.applyReset_faultCode :
    (s.applyReset).faultCode = 0 := rfl
@[simp] theorem State.applyReset_status :
    (s.applyReset).status = 0 := rfl
@[simp] theorem State.applyReset_result :
    (s.applyReset).result = 0 := rfl
@[simp] theorem State.applyReset_port :
    (s.applyReset).port = .inReset := rfl
@[simp] theorem State.applyReset_host :
    (s.applyReset).host = s.host := rfl
@[simp] theorem State.applyReset_draws :
    (s.applyReset).draws = s.draws := rfl

/-- All that taking a response does: the block is ready, whichever phase its port was in. -/
theorem State.deliver_eq : s.deliver = { s with port := .ready } := by
  cases hp : s.port <;> simp [State.deliver, hp]
  rw [← hp]

/-- All that an idle step does: a block just reset becomes ready. -/
theorem State.idle_eq : s.idle = { s with port := if s.port = .inReset then .ready else s.port } := by
  cases hp : s.port <;> simp [State.idle, hp]
  all_goals rw [← hp]

@[simp] theorem State.deliver_width : (s.deliver).width = s.width := by
  unfold State.deliver; split <;> rfl
@[simp] theorem State.deliver_maxWords : (s.deliver).maxWords = s.maxWords := by
  unfold State.deliver; split <;> rfl
@[simp] theorem State.deliver_slots : (s.deliver).slots = s.slots := by
  unfold State.deliver; split <;> rfl
@[simp] theorem State.deliver_faulted : (s.deliver).faulted = s.faulted := by
  unfold State.deliver; split <;> rfl
@[simp] theorem State.deliver_faultCode : (s.deliver).faultCode = s.faultCode := by
  unfold State.deliver; split <;> rfl
@[simp] theorem State.deliver_status : (s.deliver).status = s.status := by
  unfold State.deliver; split <;> rfl
@[simp] theorem State.deliver_result : (s.deliver).result = s.result := by
  unfold State.deliver; split <;> rfl
@[simp] theorem State.deliver_host : (s.deliver).host = s.host := by
  unfold State.deliver; split <;> rfl
@[simp] theorem State.deliver_draws : (s.deliver).draws = s.draws := by
  unfold State.deliver; split <;> rfl

@[simp] theorem State.idle_width : (s.idle).width = s.width := by
  unfold State.idle; split <;> rfl
@[simp] theorem State.idle_maxWords : (s.idle).maxWords = s.maxWords := by
  unfold State.idle; split <;> rfl
@[simp] theorem State.idle_slots : (s.idle).slots = s.slots := by
  unfold State.idle; split <;> rfl
@[simp] theorem State.idle_faulted : (s.idle).faulted = s.faulted := by
  unfold State.idle; split <;> rfl
@[simp] theorem State.idle_faultCode : (s.idle).faultCode = s.faultCode := by
  unfold State.idle; split <;> rfl
@[simp] theorem State.idle_status : (s.idle).status = s.status := by
  unfold State.idle; split <;> rfl
@[simp] theorem State.idle_result : (s.idle).result = s.result := by
  unfold State.idle; split <;> rfl
@[simp] theorem State.idle_host : (s.idle).host = s.host := by
  unfold State.idle; split <;> rfl
@[simp] theorem State.idle_draws : (s.idle).draws = s.draws := by
  unfold State.idle; split <;> rfl

/-- The fields the whole-machine views are made of. -/
@[simp] theorem State.numVectors_eq_length : s.numVectors = s.slots.length := rfl

end Sys2Proof.Machine
end

