-- ==== Sys2Proof/Laws/Packing.lean ====
section
/-! SUPPORT. What the packing functions do, bit by bit: indices split by division, a flag set in a word, a counter read
from and written to a word. -/
namespace Sys2Proof.Machine

open Sys2Proof

theorem bits_pos (w : Width) : 0 < w.bits := by cases w <;> decide

theorem bits_le_64 (w : Width) : w.bits ≤ 64 := by cases w <;> decide

theorem counters_pos (w : Width) : 0 < w.counters := by cases w <;> decide

@[simp] theorem countersPerWord_eq (w : Width) : countersPerWord w = w.counters := by cases w <;> rfl

theorem bits_eq_four_mul_counters (w : Width) : w.bits = 4 * w.counters := by cases w <;> rfl

/-! Indices -/

@[simp] theorem bitPlace_word (w : Width) (i : Nat) : (bitPlace w i).word = i / w.bits := by
  cases w <;> simp [bitPlace, wordShift, Width.bits, Nat.shiftRight_eq_div_pow]

@[simp] theorem bitPlace_pos (w : Width) (i : Nat) : (bitPlace w i).pos = i % w.bits := by
  cases w
  · exact Nat.and_two_pow_sub_one_eq_mod i 5
  · exact Nat.and_two_pow_sub_one_eq_mod i 6

@[simp] theorem counterPlace_word (w : Width) (i : Nat) : (counterPlace w i).word = i / w.counters := by
  cases w <;> simp [counterPlace, counterShift, Width.counters, Width.bits, Nat.shiftRight_eq_div_pow]

@[simp] theorem counterPlace_pos (w : Width) (i : Nat) : (counterPlace w i).pos = i % w.counters := by
  cases w
  · exact Nat.and_two_pow_sub_one_eq_mod i 3
  · exact Nat.and_two_pow_sub_one_eq_mod i 4

/-- Two indices into fields of `n` a word differ exactly where their word or their place inside it does. -/
theorem index_ext {n i k : Nat} (hd : i / n = k / n) (hm : i % n = k % n) : i = k := by
  rw [← Nat.div_add_mod i n, ← Nat.div_add_mod k n, hd, hm]

/-! Flags -/

theorem one_getLsbD (k : Nat) : (1 : Word).getLsbD k = decide (k = 0) := by
  have : (1 : Word) = BitVec.ofNat 64 (2 ^ 1 - 1) := rfl
  rw [this, BitVec.getLsbD_ofNat, Nat.testBit_two_pow_sub_one]
  by_cases hk : k = 0 <;> simp [hk]

theorem bitWord_getLsbD (s k : Nat) (hs : s < 64) : (bitWord s).getLsbD k = decide (k = s) := by
  unfold bitWord
  rw [BitVec.getLsbD_shiftLeft, one_getLsbD]
  by_cases h : k = s
  · subst h; simp [hs]
  · simp [h]; omega

theorem setBit_getLsbD (x : Word) (s k : Nat) (hs : s < 64) :
    (x ||| bitWord s).getLsbD k = (x.getLsbD k || decide (k = s)) := by
  rw [BitVec.getLsbD_or, bitWord_getLsbD s k hs]

theorem setBit_of_set (x : Word) (s : Nat) (hs : s < 64) (h : x.getLsbD s = true) : x ||| bitWord s = x := by
  apply BitVec.eq_of_getLsbD_eq
  intro k _
  rw [setBit_getLsbD x s k hs]
  by_cases hk : k = s
  · subst hk; simp [h]
  · simp [hk]

theorem bitAt_eq (x : Word) (s : Nat) : bitAt x s = if x.getLsbD s then 1 else 0 := by
  apply BitVec.eq_of_getLsbD_eq
  intro k _
  unfold bitAt
  rw [BitVec.getLsbD_and, BitVec.getLsbD_ushiftRight, one_getLsbD]
  by_cases hk : k = 0
  · subst hk; cases x.getLsbD s <;> simp
  · cases x.getLsbD s <;> simp [hk]

theorem bitWord_lt (w : Width) (s : Nat) (hs : s < w.bits) : (bitWord s).toNat < 2 ^ w.bits := by
  have h64 := bits_le_64 w
  have hs64 : (2 : Nat) ^ s < 2 ^ 64 := Nat.pow_lt_pow_right (by decide) (by omega)
  have : (bitWord s).toNat = 2 ^ s := by
    simp only [bitWord, BitVec.toNat_shiftLeft, Nat.shiftLeft_eq]
    show 1 * 2 ^ s % 2 ^ 64 = 2 ^ s
    rw [Nat.one_mul, Nat.mod_eq_of_lt hs64]
  rw [this]
  exact Nat.pow_lt_pow_right (by decide) hs

theorem or_lt (w : Width) (x y : Word) (hx : x.toNat < 2 ^ w.bits) (hy : y.toNat < 2 ^ w.bits) :
    (x ||| y).toNat < 2 ^ w.bits := by
  rw [BitVec.toNat_or]; exact Nat.or_lt_two_pow hx hy

theorem and_lt (w : Width) (x y : Word) (hx : x.toNat < 2 ^ w.bits) : (x &&& y).toNat < 2 ^ w.bits := by
  rw [BitVec.toNat_and]; exact lt_of_le_of_lt Nat.and_le_left hx

/-! Counters -/

/-- The nibble a counter occupies lies inside the word (R35). -/
theorem nibbleShift_add_four_le (w : Width) (b : Nat) : nibbleShift w b + 4 ≤ w.bits := by
  have h := bits_eq_four_mul_counters w
  have := counters_pos w
  unfold nibbleShift
  rw [countersPerWord_eq]
  omega

/-- The nibbles of two counters of a word do not meet (R35). -/
theorem nibbleShift_disjoint (w : Width) (b b' : Nat) (hb : b < w.counters) (hb' : b' < w.counters) (h : b' ≠ b) :
    nibbleShift w b + 4 ≤ nibbleShift w b' ∨ nibbleShift w b' + 4 ≤ nibbleShift w b := by
  unfold nibbleShift
  rw [countersPerWord_eq]
  omega

theorem notW_getLsbD (w : Width) (x : Word) (p : Nat) :
    (notW w x).getLsbD p = (decide (p < w.bits) && !x.getLsbD p) := by
  have h64 := bits_le_64 w
  unfold notW
  rw [BitVec.getLsbD_and, BitVec.getLsbD_not, BitVec.getLsbD_ofNat, Nat.testBit_two_pow_sub_one]
  by_cases hp : p < w.bits
  · have : p < 64 := by omega
    simp [hp, this]
  · simp [hp]

theorem nibble_getLsbD (p : Nat) : (0xF : Word).getLsbD p = decide (p < 4) := by
  have : (0xF : Word) = BitVec.ofNat 64 (2 ^ 4 - 1) := rfl
  rw [this, BitVec.getLsbD_ofNat, Nat.testBit_two_pow_sub_one]
  by_cases hp : p < 4
  · have : p < 64 := by omega
    simp [hp, this]
  · simp [hp]

theorem counterAt_getLsbD (w : Width) (x : Word) (b q : Nat) :
    (counterAt w x b).getLsbD q = (decide (q < 4) && x.getLsbD (nibbleShift w b + q)) := by
  unfold counterAt
  rw [BitVec.getLsbD_setWidth, BitVec.getLsbD_and, BitVec.getLsbD_ushiftRight, nibble_getLsbD]
  by_cases hq : q < 4 <;> simp [hq]

/-- What writing a counter does to each bit of its word. -/
theorem withCounterSet_getLsbD (w : Width) (x : Word) (b : Nat) (v : BitVec 4) (p : Nat) :
    (withCounterSet w x b v).getLsbD p =
      if nibbleShift w b ≤ p ∧ p < nibbleShift w b + 4 then v.getLsbD (p - nibbleShift w b)
      else decide (p < w.bits) && x.getLsbD p := by
  have hle := nibbleShift_add_four_le w b
  have h64 := bits_le_64 w
  unfold withCounterSet
  rw [BitVec.getLsbD_or, BitVec.getLsbD_and, notW_getLsbD, BitVec.getLsbD_shiftLeft, BitVec.getLsbD_shiftLeft,
    nibble_getLsbD, BitVec.getLsbD_setWidth]
  by_cases h1 : nibbleShift w b ≤ p
  · by_cases h2 : p < nibbleShift w b + 4
    · have a1 : p < 64 := by omega
      have a2 : p - nibbleShift w b < 4 := by omega
      have a3 : p - nibbleShift w b < 64 := by omega
      have a4 : ¬ p < nibbleShift w b := by omega
      simp [h1, h2, a1, a2, a3, a4]
    · have a2 : ¬ p - nibbleShift w b < 4 := by omega
      have a5 : v.getLsbD (p - nibbleShift w b) = false := BitVec.getLsbD_of_ge _ _ (by omega)
      simp [h2, a2, a5, Bool.and_comm]
  · have a4 : p < nibbleShift w b := by omega
    simp [h1, a4, Bool.and_comm]

theorem counterAt_withCounterSet_same (w : Width) (x : Word) (b : Nat) (v : BitVec 4) :
    counterAt w (withCounterSet w x b v) b = v := by
  apply BitVec.eq_of_getLsbD_eq
  intro q hq
  rw [counterAt_getLsbD, withCounterSet_getLsbD]
  simp [hq]

theorem counterAt_withCounterSet_other (w : Width) (x : Word) (b b' : Nat) (v : BitVec 4)
    (hb : b < w.counters) (hb' : b' < w.counters) (h : b' ≠ b) :
    counterAt w (withCounterSet w x b v) b' = counterAt w x b' := by
  apply BitVec.eq_of_getLsbD_eq
  intro q hq
  have hd := nibbleShift_disjoint w b b' hb hb' h
  have hle := nibbleShift_add_four_le w b'
  rw [counterAt_getLsbD, counterAt_getLsbD, withCounterSet_getLsbD, if_neg (by omega)]
  have : nibbleShift w b' + q < w.bits := by omega
  simp [this]

theorem lt_of_high_bits_clear (w : Width) (x : Word) (h : ∀ p, w.bits ≤ p → x.getLsbD p = false) :
    x.toNat < 2 ^ w.bits :=
  Nat.lt_pow_two_of_testBit _ h

theorem withCounterSet_lt (w : Width) (x : Word) (b : Nat) (v : BitVec 4) :
    (withCounterSet w x b v).toNat < 2 ^ w.bits := by
  have hle := nibbleShift_add_four_le w b
  apply lt_of_high_bits_clear
  intro p hp
  rw [withCounterSet_getLsbD, if_neg (by omega)]
  simp [Nat.not_lt.mpr hp]

/-- Writing back the counter a word holds changes nothing of a `W`-bit word's counters; on a counter's number: the
hexadecimal digit it is. -/
theorem counterAt_toNat (w : Width) (x : Word) (b : Nat) :
    (counterAt w x b).toNat = x.toNat / 16 ^ (w.counters - 1 - b) % 16 := by
  have h16 : ∀ n : Nat, n &&& 15 = n % 16 := fun n => Nat.and_two_pow_sub_one_eq_mod n 4
  unfold counterAt nibbleShift
  rw [countersPerWord_eq, BitVec.toNat_setWidth, BitVec.toNat_and, BitVec.toNat_ushiftRight]
  show (_ &&& 15) % 16 = _
  rw [h16, Nat.mod_mod, Nat.shiftRight_eq_div_pow, Nat.mul_comm _ 4, Nat.pow_mul]

end Sys2Proof.Machine
end

