-- ==== Sys2Proof/Laws/Ops.lean ====
section
/-! SUPPORT. What each shared operation can do: the operand checks, the response of an error, reads and writes of slots,
and the form of the memory. Provers cite these instead of unfolding. -/
namespace Sys2Proof.Machine

open Sys2Proof

/-! The checks of R90 -/

theorem check_of {p : Prop} [Decidable p] (hp : p) (e : Error) : check p e = .ok () := if_pos hp

theorem check_of_not {p : Prop} [Decidable p] (hp : ¬ p) (e : Error) : check p e = .error e := if_neg hp

@[simp] theorem ok_bind {α β : Type} (x : α) (f : α → Except Error β) : (Except.ok x >>= f) = f x := rfl

@[simp] theorem error_bind {α β : Type} (e : Error) (f : α → Except Error β) :
    ((Except.error e : Except Error α) >>= f) = .error e := rfl

@[simp] theorem Slot.len_mk (k : Kind) (ws : List Word) : Slot.len ⟨k, ws⟩ = ws.length := rfl

theorem slot?_some_iff (s : State) (h : Handle) : (∃ v, s.slot? h = some v) ↔ h.toNat < s.numVectors := by
  unfold State.slot?
  constructor
  · rintro ⟨v, hv⟩
    exact (List.getElem?_eq_some_iff.mp hv).1
  · intro hlt
    exact ⟨_, List.getElem?_eq_getElem hlt⟩

theorem slot?_none_iff (s : State) (h : Handle) : s.slot? h = none ↔ s.numVectors ≤ h.toNat := by
  unfold State.slot?
  exact List.getElem?_eq_none_iff

theorem slotAt_of_some {s : State} {h : Handle} {v : Slot} (hv : s.slot? h = some v) : s.slotAt h = .ok v := by
  unfold State.slot? at hv
  simp [State.slotAt, hv]

theorem slotAt_of_none {s : State} {h : Handle} (hv : s.slot? h = none) :
    s.slotAt h = .error .illegalCommand := by
  unfold State.slot? at hv
  simp [State.slotAt, hv]

/-- The handle and kind checks: the slot where there is one of the kind, else IllegalCommand. -/
theorem slotOfKind_eq (s : State) (k : Kind) (h : Handle) :
    (∃ v, s.slot? h = some v ∧ v.kind = k ∧ s.slotOfKind k h = .ok v) ∨
    (s.kind? h ≠ some k ∧ s.slotOfKind k h = .error .illegalCommand) := by
  cases hv : s.slot? h with
  | none => exact .inr ⟨by simp [State.kind?, hv], by simp [State.slotOfKind, slotAt_of_none hv]⟩
  | some v =>
    by_cases hk : v.kind = k
    · exact .inl ⟨v, rfl, hk, by simp [State.slotOfKind, slotAt_of_some hv, hk, check]⟩
    · exact .inr ⟨by simp [State.kind?, hv, hk], by simp [State.slotOfKind, slotAt_of_some hv, hk, check]⟩

theorem slotOfKind_of_kind {s : State} {k : Kind} {h : Handle} {v : Slot} (hv : s.slot? h = some v) (hk : v.kind = k) :
    s.slotOfKind k h = .ok v := by
  simp [State.slotOfKind, slotAt_of_some hv, hk, check]

theorem slotOfKind_of_wrong {s : State} {k : Kind} {h : Handle} (hk : s.kind? h ≠ some k) :
    s.slotOfKind k h = .error .illegalCommand := by
  rcases slotOfKind_eq s k h with ⟨v, hv, hvk, -⟩ | ⟨-, he⟩
  · exact absurd (by simp [State.kind?, hv, hvk]) hk
  · exact he

/-- The operand of a single-bit command, in its three cases. -/
theorem bitOperand_eq (s : State) (h : Handle) (x : Arg) :
    (∃ v, s.slot? h = some v ∧ v.kind = .bit ∧ x.toNat < v.len * s.width.bits ∧
      s.bitOperand h x = .ok (bitPlace s.width x.toNat)) ∨
    (s.kind? h ≠ some .bit ∧ s.bitOperand h x = .error .illegalCommand) ∨
    (∃ v, s.slot? h = some v ∧ v.kind = .bit ∧ v.len * s.width.bits ≤ x.toNat ∧
      s.bitOperand h x = .error .outOfRange) := by
  rcases slotOfKind_eq s .bit h with ⟨v, hv, hk, ho⟩ | ⟨hk, ho⟩
  · by_cases hx : x.toNat < v.len * s.width.bits
    · exact .inl ⟨v, hv, hk, hx, by simp [State.bitOperand, ho, hx, check]⟩
    · exact .inr (.inr ⟨v, hv, hk, Nat.le_of_not_lt hx, by simp [State.bitOperand, ho, hx, check]⟩)
  · exact .inr (.inl ⟨hk, by simp [State.bitOperand, ho]⟩)

/-- The operand of a single-counter command, in its three cases. -/
theorem counterOperand_eq (s : State) (h : Handle) (x : Arg) :
    (∃ v, s.slot? h = some v ∧ v.kind = .ctr ∧ x.toNat < v.len * s.width.counters ∧
      s.counterOperand h x = .ok (counterPlace s.width x.toNat)) ∨
    (s.kind? h ≠ some .ctr ∧ s.counterOperand h x = .error .illegalCommand) ∨
    (∃ v, s.slot? h = some v ∧ v.kind = .ctr ∧ v.len * s.width.counters ≤ x.toNat ∧
      s.counterOperand h x = .error .outOfRange) := by
  rcases slotOfKind_eq s .ctr h with ⟨v, hv, hk, ho⟩ | ⟨hk, ho⟩
  · by_cases hx : x.toNat < v.len * s.width.counters
    · exact .inl ⟨v, hv, hk, hx, by simp [State.counterOperand, ho, hx, check]⟩
    · exact .inr (.inr ⟨v, hv, hk, Nat.le_of_not_lt hx, by simp [State.counterOperand, ho, hx, check]⟩)
  · exact .inr (.inl ⟨hk, by simp [State.counterOperand, ho]⟩)

/-- The operand of `RD_WORD`, in its three cases. -/
theorem wordOperand_eq (s : State) (h : Handle) (x : Arg) :
    (∃ v, s.slot? h = some v ∧ v.kind ≠ .none ∧ x.toNat < v.len ∧ s.wordOperand h x = .ok x.toNat) ∨
    ((s.kind? h = none ∨ s.kind? h = some .none) ∧ s.wordOperand h x = .error .illegalCommand) ∨
    (∃ v, s.slot? h = some v ∧ v.kind ≠ .none ∧ v.len ≤ x.toNat ∧ s.wordOperand h x = .error .outOfRange) := by
  cases hv : s.slot? h with
  | none => exact .inr (.inl ⟨by simp [State.kind?, hv], by simp [State.wordOperand, slotAt_of_none hv]⟩)
  | some v =>
    by_cases hk : v.kind = .none
    · exact .inr (.inl ⟨by simp [State.kind?, hv, hk], by simp [State.wordOperand, slotAt_of_some hv, hk, check]⟩)
    · by_cases hx : x.toNat < v.len
      · exact .inl ⟨v, rfl, hk, hx, by simp [State.wordOperand, slotAt_of_some hv, hk, hx, check]⟩
      · exact .inr (.inr ⟨v, rfl, hk, Nat.le_of_not_lt hx, by simp [State.wordOperand, slotAt_of_some hv, hk, hx, check]⟩)

/-- The operands of `BV_OR` and `BV_AND`, in their three cases. -/
theorem pairOperand_eq (s : State) (vd vs : Handle) :
    (∃ v u, s.slot? vd = some v ∧ s.slot? vs = some u ∧ v.kind = .bit ∧ u.kind = .bit ∧ v.len = u.len ∧
      s.pairOperand vd vs = .ok (v, u)) ∨
    ((s.kind? vd ≠ some .bit ∨ s.kind? vs ≠ some .bit) ∧ s.pairOperand vd vs = .error .illegalCommand) ∨
    (∃ v u, s.slot? vd = some v ∧ s.slot? vs = some u ∧ v.kind = .bit ∧ u.kind = .bit ∧ v.len ≠ u.len ∧
      s.pairOperand vd vs = .error .incompatibleSize) := by
  cases hv : s.slot? vd with
  | none => exact .inr (.inl ⟨by simp [State.kind?, hv], by simp [State.pairOperand, slotAt_of_none hv]⟩)
  | some v =>
    cases hu : s.slot? vs with
    | none =>
      exact .inr (.inl ⟨by simp [State.kind?, hu],
        by simp [State.pairOperand, slotAt_of_some hv, slotAt_of_none hu]⟩)
    | some u =>
      have e1 := slotAt_of_some hv
      have e2 := slotAt_of_some hu
      by_cases hk : v.kind = .bit
      · by_cases hk' : u.kind = .bit
        · by_cases hl : v.len = u.len
          · exact .inl ⟨v, u, rfl, rfl, hk, hk', hl, by simp [State.pairOperand, e1, e2, hk, hk', hl, check]⟩
          · exact .inr (.inr ⟨v, u, rfl, rfl, hk, hk', hl, by simp [State.pairOperand, e1, e2, hk, hk', hl, check]⟩)
        · exact .inr (.inl ⟨by simp [State.kind?, hu, hk'], by simp [State.pairOperand, e1, e2, hk, hk', check]⟩)
      · exact .inr (.inl ⟨by simp [State.kind?, hv, hk], by simp [State.pairOperand, e1, e2, hk, check]⟩)

/-- The operands of `BV_NEW` and `CV_NEW`, in their three cases. -/
theorem newOperand_eq (s : State) (h : Handle) (n : Arg) :
    (h.toNat < s.numVectors ∧ n.toNat ≤ s.maxWords ∧ s.newOperand h n = .ok n.toNat) ∨
    (s.numVectors ≤ h.toNat ∧ s.newOperand h n = .error .illegalCommand) ∨
    (h.toNat < s.numVectors ∧ s.maxWords < n.toNat ∧ s.newOperand h n = .error .capacityExceeded) := by
  cases hv : s.slot? h with
  | none => exact .inr (.inl ⟨(slot?_none_iff s h).mp hv, by simp [State.newOperand, slotAt_of_none hv]⟩)
  | some v =>
    have hlt := (slot?_some_iff s h).mp ⟨v, hv⟩
    by_cases hn : n.toNat ≤ s.maxWords
    · exact .inl ⟨hlt, hn, by simp [State.newOperand, slotAt_of_some hv, hn, check]⟩
    · exact .inr (.inr ⟨hlt, Nat.lt_of_not_le hn, by simp [State.newOperand, slotAt_of_some hv, hn, check]⟩)

/-! Performing a command and raising an error -/

/-- What raising an error leaves: one of the two responses of R89, by the error's class. -/
theorem raise_eq (s : State) (e : Error) :
    s.raise e = if e.fatal then s.fatalResponse e.code else s.recoverableResponse e.code := by
  cases e <;> rfl

@[simp] theorem raise_slots (s : State) (e : Error) : (s.raise e).slots = s.slots := by cases e <;> rfl

theorem perform_of_faulted {s : State} (body : Except Error State) (h : s.faulted = true) :
    s.perform body = .next s.faultedResponse := by
  simp [State.perform, h, State.respond, State.faultedResponse, statusFaulted]

@[simp] theorem perform_ok {s : State} {t : State} (h : s.faulted = false) : s.perform (.ok t) = .next t := by
  simp [State.perform, h]

@[simp] theorem perform_error {s : State} {e : Error} (h : s.faulted = false) :
    s.perform (.error e) = .next (s.raise e) := by
  simp [State.perform, h]

/-- Everything performing a command can do. -/
theorem perform_cases {s t : State} {body : Except Error State} (h : s.perform body = .next t) :
    (s.faulted = true ∧ t = s.faultedResponse) ∨
    (s.faulted = false ∧ ∃ e, body = .error e ∧ t = s.raise e) ∨ (s.faulted = false ∧ body = .ok t) := by
  cases hf : s.faulted with
  | true =>
    rw [perform_of_faulted body hf] at h
    exact .inl ⟨rfl, (Host.Outcome.next.inj h).symm⟩
  | false =>
    cases body with
    | error e =>
      rw [perform_error hf] at h
      exact .inr (.inl ⟨rfl, e, rfl, (Host.Outcome.next.inj h).symm⟩)
    | ok u =>
      rw [perform_ok hf] at h
      exact .inr (.inr ⟨rfl, by rw [Host.Outcome.next.inj h]⟩)

/-! Reads and writes of slots -/

theorem memRead_of_slot {s : State} {h : Handle} {v : Slot} (hv : s.slot? h = some v) (j : Nat) :
    s.memRead h j = v.words[j]?.getD 0 := by
  unfold State.slot? at hv
  simp [State.memRead, hv]

theorem word?_of_slot {s : State} {h : Handle} {v : Slot} (hv : s.slot? h = some v) (j : Nat) :
    s.word? h j = v.words[j]? := by
  simp [State.word?, hv]

/-- A read gives the word where there is one. -/
theorem memRead_of_word {s : State} {h : Handle} {j : Nat} {x : Word} (hx : s.word? h j = some x) :
    s.memRead h j = x := by
  cases hv : s.slot? h with
  | none => simp [State.word?, hv] at hx
  | some v =>
    rw [word?_of_slot hv] at hx
    rw [memRead_of_slot hv, hx]; rfl

theorem toNat_ne {g h : Handle} (hne : g ≠ h) : h.toNat ≠ g.toNat := fun he => hne (BitVec.eq_of_toNat_eq he.symm)

theorem slot?_setSlot_same {s : State} {h : Handle} (v : Slot) (hlt : h.toNat < s.numVectors) :
    (s.setSlot h v).slot? h = some v := by
  unfold State.slot?
  rw [State.setSlot_slots, List.getElem?_set_self hlt]

theorem slot?_setSlot_other {s : State} {g h : Handle} (v : Slot) (hne : g ≠ h) :
    (s.setSlot h v).slot? g = s.slot? g := by
  unfold State.slot?
  rw [State.setSlot_slots, List.getElem?_set_ne (toNat_ne hne)]

theorem slot?_modify {s : State} (g h : Handle) (f : Slot → Slot) :
    (s.slots.modify h.toNat f)[g.toNat]? = if g = h then (s.slot? g).map f else s.slot? g := by
  rw [List.getElem?_modify]
  by_cases hg : g = h
  · subst hg; simp [State.slot?]
  · simp [toNat_ne hg, hg, State.slot?]

theorem slot?_setWords (s : State) (g h : Handle) (ws : List Word) :
    (s.setWords h ws).slot? g = if g = h then (s.slot? g).map (fun v => { v with words := ws }) else s.slot? g :=
  slot?_modify g h _

theorem slot?_memWrite (s : State) (g h : Handle) (j : Nat) (x : Word) :
    (s.memWrite h j x).slot? g =
      if g = h then (s.slot? g).map (fun v => { v with words := v.words.set j x }) else s.slot? g :=
  slot?_modify g h _

/-- A read after a write: the word written at its place, the word before at every other place. -/
theorem word?_memWrite (s : State) (g h : Handle) (j k : Nat) (x : Word) :
    (s.memWrite h j x).word? g k =
      if g = h ∧ k = j then (s.word? g k).map (fun _ => x) else s.word? g k := by
  unfold State.word?
  rw [slot?_memWrite]
  by_cases hg : g = h
  · subst hg
    cases hv : s.slot? g with
    | none => simp
    | some v =>
      by_cases hk : k = j
      · subst hk
        simp only [Option.map_some, Option.bind_some, if_true, and_self, List.getElem?_set]
        by_cases hlt : k < v.words.length
        · simp [hlt]
        · simp [hlt]
      · simp [hk, List.getElem?_set_ne (Ne.symm hk)]
  · simp [hg]

@[simp] theorem kind?_memWrite (s : State) (g h : Handle) (j : Nat) (x : Word) :
    (s.memWrite h j x).kind? g = s.kind? g := by
  unfold State.kind?
  rw [slot?_memWrite]
  split <;> cases s.slot? g <;> rfl

@[simp] theorem len_memWrite (s : State) (g h : Handle) (j : Nat) (x : Word) :
    ((s.memWrite h j x).slot? g).map Slot.len = (s.slot? g).map Slot.len := by
  rw [slot?_memWrite]
  split <;> cases s.slot? g <;> simp

/-- An index in range names a word of its slot. -/
theorem div_lt_len {n x len : Nat} (hn : 0 < n) (hx : x < len * n) : x / n < len :=
  (Nat.div_lt_iff_lt_mul hn).mpr hx

/-! The form of the memory -/

theorem Slot.wf_iff (w : Width) (n : Nat) (v : Slot) :
    v.wf w n = true ↔ (v.kind = .none → v.len = 0) ∧ v.len ≤ n ∧ ∀ x ∈ v.words, x.toNat < 2 ^ w.bits := by
  unfold Slot.wf
  simp only [Bool.and_eq_true, Bool.or_eq_true, bne_iff_ne, beq_iff_eq, decide_eq_true_eq, List.all_eq_true]
  constructor
  · rintro ⟨⟨h1, h2⟩, h3⟩
    exact ⟨fun hk => h1.resolve_left (fun h => h hk), h2, h3⟩
  · rintro ⟨h1, h2, h3⟩
    exact ⟨⟨by by_cases hk : v.kind = .none; exacts [.inr (h1 hk), .inl hk], h2⟩, h3⟩

theorem Memory.wf_iff (w : Width) (n : Nat) (m : Memory) :
    Memory.wf w n m = true ↔ 2 ≤ m.length ∧ m.length ≤ 16 ∧ ∀ v ∈ m, v.wf w n = true := by
  unfold Memory.wf
  simp [and_assoc]

theorem Slot.unallocated_wf (w : Width) (n : Nat) : Slot.unallocated.wf w n = true := by
  simp [Slot.wf_iff, Slot.unallocated]

theorem Slot.zeroed_wf (w : Width) (k : Kind) (n len : Nat) (hk : k ≠ .none) (hlen : len ≤ n) :
    (Slot.zeroed k len).wf w n = true := by
  rw [Slot.wf_iff]
  refine ⟨fun h => absurd h hk, by simpa [Slot.zeroed] using hlen, fun x hx => ?_⟩
  rw [(List.mem_replicate.mp hx).2]
  exact Nat.two_pow_pos _

/-- Replacing one slot by a well-formed one keeps the form of the memory. -/
theorem Memory.wf_set {w : Width} {n : Nat} {m : Memory} (h : Memory.wf w n m = true) (i : Nat) {v : Slot}
    (hv : v.wf w n = true) : Memory.wf w n (m.set i v) = true := by
  rw [Memory.wf_iff] at h ⊢
  refine ⟨by simpa using h.1, by simpa using h.2.1, fun u hu => ?_⟩
  rcases List.mem_or_eq_of_mem_set hu with h' | h'
  · exact h.2.2 u h'
  · exact h' ▸ hv

/-- Changing one slot keeps the form of the memory where it keeps that slot's. -/
theorem Memory.wf_modify {w : Width} {n : Nat} {m : Memory} (h : Memory.wf w n m = true) (i : Nat) (f : Slot → Slot)
    (hf : ∀ v, m[i]? = some v → (f v).wf w n = true) : Memory.wf w n (m.modify i f) = true := by
  rw [Memory.wf_iff] at h ⊢
  refine ⟨by simpa using h.1, by simpa using h.2.1, fun u hu => ?_⟩
  obtain ⟨k, hk⟩ := List.mem_iff_getElem?.mp hu
  rw [List.getElem?_modify] at hk
  by_cases hi : i = k
  · subst hi
    cases hm : m[i]? with
    | none => simp [hm] at hk
    | some v =>
      simp only [hm, if_true, Option.map_eq_map, Option.map_some, Option.some.injEq] at hk
      exact hk ▸ hf v hm
  · simp only [hi, if_false] at hk
    exact h.2.2 u (List.mem_iff_getElem?.mpr ⟨k, by simpa using hk⟩)

theorem Slot.wf_set_word {w : Width} {n : Nat} {v : Slot} (hv : v.wf w n = true) (j : Nat) {x : Word}
    (hx : x.toNat < 2 ^ w.bits) : Slot.wf w n { v with words := v.words.set j x } = true := by
  rw [Slot.wf_iff] at hv ⊢
  refine ⟨by simpa using hv.1, by simpa using hv.2.1, fun y hy => ?_⟩
  rcases List.mem_or_eq_of_mem_set hy with h' | h'
  · exact hv.2.2 y h'
  · exact h' ▸ hx

theorem slot_wf_of_memory {s : State} (h : Memory.wf s.width s.maxWords s.slots = true) {g : Handle} {v : Slot}
    (hv : s.slot? g = some v) : v.wf s.width s.maxWords = true :=
  ((Memory.wf_iff _ _ _).mp h).2.2 v (List.mem_iff_getElem?.mpr ⟨_, hv⟩)

/-- A word write of a `W`-bit word keeps the form of the memory. -/
theorem memWrite_wf {s : State} (h : Memory.wf s.width s.maxWords s.slots = true) (g : Handle) (j : Nat) {x : Word}
    (hx : x.toNat < 2 ^ s.width.bits) : Memory.wf s.width s.maxWords (s.memWrite g j x).slots = true :=
  Memory.wf_modify h _ _ (fun _ hv => Slot.wf_set_word (slot_wf_of_memory h hv) j hx)

/-- A word read from a well-formed memory has `W` bits. -/
theorem memRead_lt {s : State} (h : Memory.wf s.width s.maxWords s.slots = true) (g : Handle) (j : Nat) :
    (s.memRead g j).toNat < 2 ^ s.width.bits := by
  cases hv : s.slot? g with
  | none =>
    unfold State.slot? at hv
    simp [State.memRead, hv]
  | some v =>
    rw [memRead_of_slot hv]
    cases hj : v.words[j]? with
    | none => simp
    | some x =>
      exact ((Slot.wf_iff _ _ _).mp (slot_wf_of_memory h hv)).2.2 x (List.mem_iff_getElem?.mpr ⟨j, hj⟩)

end Sys2Proof.Machine
end

