-- ==== Sys2Proof/Laws/Exec.lean ====
section
/-! SUPPORT. What a command can do, said once for all of them: refused in the fault state, an error that changes no
slot, or performed on its own slot. Every frame, invariant and run of the machine goes through `exec_cases`. -/
namespace Sys2Proof.Machine

open Sys2Proof

/-- A performed command: the state with the memory `m` in which only the slot `i.dest` may differ, and a response OK. -/
def PerformedOn (i : Instr) (s t : State) : Prop :=
  ∃ m r, t = { s with slots := m, status := 0, result := r } ∧ m.length = s.slots.length ∧
    (∀ h : Handle, i.dest ≠ some h → m[h.toNat]? = s.slots[h.toNat]?) ∧ (i.dest = none → m = s.slots) ∧
    (Memory.wf s.width s.maxWords s.slots = true → Memory.wf s.width s.maxWords m = true)

theorem performedOn_okResponse (i : Instr) (s : State) (r : BitVec 64) : PerformedOn i s (s.okResponse r) :=
  ⟨s.slots, r, rfl, rfl, fun _ _ => rfl, fun _ => rfl, id⟩

theorem performedOn_respond (i : Instr) (s : State) (r : BitVec 64) : PerformedOn i s (s.respond statusOk r) :=
  performedOn_okResponse i s r

/-- A change of the slot `vd` alone is one of the slot a command writes. -/
theorem performedOn_modify {i : Instr} {s : State} {vd : Handle} (hd : i.dest = some vd) (f : Slot → Slot) (r : BitVec 64)
    (hf : Memory.wf s.width s.maxWords s.slots = true → ∀ v, s.slot? vd = some v → (f v).wf s.width s.maxWords = true) :
    PerformedOn i s { s with slots := s.slots.modify vd.toNat f, status := 0, result := r } := by
  refine ⟨_, r, rfl, by simp, fun h hne => ?_, by simp [hd], fun hw => Memory.wf_modify hw _ _ (hf hw)⟩
  have : h ≠ vd := fun he => hne (by rw [hd, he])
  rw [slot?_modify, if_neg this]; rfl

theorem performedOn_memWrite {i : Instr} {s : State} {vd : Handle} (hd : i.dest = some vd) (j : Nat) (x : Word)
    (r : BitVec 64) (hx : Memory.wf s.width s.maxWords s.slots = true → x.toNat < 2 ^ s.width.bits) :
    PerformedOn i s ((s.memWrite vd j x).respond statusOk r) :=
  performedOn_modify hd _ r (fun hw _ hv => Slot.wf_set_word (slot_wf_of_memory hw hv) j (hx hw))

theorem performedOn_setWords {i : Instr} {s : State} {vd : Handle} {v : Slot} (hd : i.dest = some vd)
    (hv : s.slot? vd = some v) (ws : List Word) (r : BitVec 64) (hl : ws.length = v.len)
    (hx : Memory.wf s.width s.maxWords s.slots = true → ∀ x ∈ ws, x.toNat < 2 ^ s.width.bits) :
    PerformedOn i s ((s.setWords vd ws).respond statusOk r) := by
  refine performedOn_modify hd _ r (fun hw u hu => ?_)
  rw [hv] at hu
  cases hu
  have h := (Slot.wf_iff _ _ _).mp (slot_wf_of_memory hw hv)
  exact (Slot.wf_iff _ _ _).mpr ⟨fun hk => by simpa [hl] using h.1 hk, by simpa [hl] using h.2.1, hx hw⟩

theorem performedOn_setSlot {i : Instr} {s : State} {vd : Handle} (hd : i.dest = some vd) (v : Slot) (r : BitVec 64)
    (hv : v.wf s.width s.maxWords = true) : PerformedOn i s ((s.setSlot vd v).respond statusOk r) := by
  refine ⟨s.slots.set vd.toNat v, r, rfl, by simp, fun h hne => ?_, by simp [hd], fun hw => Memory.wf_set hw _ hv⟩
  have : h ≠ vd := fun he => hne (by rw [hd, he])
  rw [List.getElem?_set_ne (toNat_ne this)]

theorem allocate_cases {s t : State} {k : Kind} {vd : Handle} {n : Arg} (hk : k ≠ .none)
    (h : s.allocate k vd n = .ok t) (i : Instr) (hd : i.dest = some vd) : PerformedOn i s t := by
  rcases newOperand_eq s vd n with ⟨-, hn, ho⟩ | ⟨-, ho⟩ | ⟨-, -, ho⟩ <;> simp [State.allocate, ho] at h
  exact h ▸ performedOn_setSlot hd _ 0 (Slot.zeroed_wf _ k _ _ hk hn)

theorem clearSlot_cases {s t : State} {k : Kind} {vd : Handle} (h : s.clearSlot k vd = .ok t) (i : Instr)
    (hd : i.dest = some vd) : PerformedOn i s t := by
  rcases slotOfKind_eq s k vd with ⟨v, hv, -, ho⟩ | ⟨-, ho⟩ <;> simp [State.clearSlot, ho] at h
  refine h ▸ performedOn_setWords hd hv _ 0 (by simp) (fun _ x hx => ?_)
  rw [(List.mem_replicate.mp hx).2]
  exact Nat.two_pow_pos _

theorem combine_cases {s t : State} {f : Word → Word → Word} {vd vs : Handle} (h : s.combine f vd vs = .ok t)
    (hf : ∀ x y : Word, x.toNat < 2 ^ s.width.bits → y.toNat < 2 ^ s.width.bits → (f x y).toNat < 2 ^ s.width.bits)
    (i : Instr) (hd : i.dest = some vd) : PerformedOn i s t := by
  rcases pairOperand_eq s vd vs with ⟨v, u, hv, hu, -, -, hl, ho⟩ | ⟨-, ho⟩ | ⟨v, u, -, -, -, -, -, ho⟩ <;>
    simp [State.combine, ho] at h
  refine h ▸ performedOn_setWords hd hv _ 0 (by simpa using Nat.min_eq_left (Nat.le_of_eq hl)) (fun hw x hx => ?_)
  obtain ⟨j, hj⟩ := List.mem_iff_getElem?.mp hx
  rw [List.getElem?_zipWith] at hj
  have ha := ((Slot.wf_iff _ _ _).mp (slot_wf_of_memory hw hv)).2.2
  have hb := ((Slot.wf_iff _ _ _).mp (slot_wf_of_memory hw hu)).2.2
  cases h1 : v.words[j]? with
  | none => simp [h1] at hj
  | some a =>
    cases h2 : u.words[j]? with
    | none => simp [h1, h2] at hj
    | some b =>
      simp only [h1, h2, Option.some.injEq] at hj
      exact hj ▸ hf a b (ha a (List.mem_iff_getElem?.mpr ⟨j, h1⟩)) (hb b (List.mem_iff_getElem?.mpr ⟨j, h2⟩))

/-- Setting the flag of an index in range. -/
theorem setBit_performed {i : Instr} {s : State} {vd : Handle} (hd : i.dest = some vd) (x : Nat) (r : BitVec 64) :
    PerformedOn i s ((s.setBit vd (bitPlace s.width x)).respond statusOk r) :=
  performedOn_memWrite hd _ _ r (fun hw =>
    or_lt _ _ _ (memRead_lt hw _ _) (bitWord_lt _ _ (by rw [bitPlace_pos]; exact Nat.mod_lt _ (bits_pos _))))

/-- Writing a counter. -/
theorem writeCounter_performed {i : Instr} {s : State} {vd : Handle} (hd : i.dest = some vd) (p : Place) (c : BitVec 4) :
    PerformedOn i s ((s.writeCounter vd p c).respond statusOk 0) :=
  performedOn_memWrite hd _ _ 0 (fun _ => withCounterSet_lt _ _ _ _)

/-- Everything a command can do: it is refused while FAULTED = 1; or it raises an error; or it is performed. -/
theorem exec_cases {i : Instr} {s t : State} (h : exec i s = .next t) :
    (s.faulted = true ∧ t = s.faultedResponse) ∨ (s.faulted = false ∧ ∃ e, t = s.raise e) ∨
    (s.faulted = false ∧ PerformedOn i s t) := by
  have key : ∀ body : Except Error State, s.perform body = .next t →
      (∀ u, body = .ok u → PerformedOn i s u) →
      (s.faulted = true ∧ t = s.faultedResponse) ∨ (s.faulted = false ∧ ∃ e, t = s.raise e) ∨
      (s.faulted = false ∧ PerformedOn i s t) := by
    intro body hb hp
    rcases perform_cases hb with h1 | ⟨hf, e, -, ht⟩ | ⟨hf, hok⟩
    · exact .inl h1
    · exact .inr (.inl ⟨hf, e, ht⟩)
    · exact .inr (.inr ⟨hf, hp t hok⟩)
  cases i with
  | bvNew vd n => exact key _ h (fun u hu => allocate_cases (by decide) hu _ rfl)
  | cvNew vd n => exact key _ h (fun u hu => allocate_cases (by decide) hu _ rfl)
  | bvSet vd x =>
    refine key _ h (fun u hu => ?_)
    rcases bitOperand_eq s vd x with ⟨v, -, -, -, ho⟩ | ⟨-, ho⟩ | ⟨v, -, -, -, ho⟩ <;> simp [ho] at hu
    exact hu ▸ setBit_performed rfl _ _
  | bvGet vd x =>
    refine key _ h (fun u hu => ?_)
    rcases bitOperand_eq s vd x with ⟨v, -, -, -, ho⟩ | ⟨-, ho⟩ | ⟨v, -, -, -, ho⟩ <;> simp [ho] at hu
    exact hu ▸ performedOn_respond _ _ _
  | bvGetset vd x =>
    refine key _ h (fun u hu => ?_)
    rcases bitOperand_eq s vd x with ⟨v, -, -, -, ho⟩ | ⟨-, ho⟩ | ⟨v, -, -, -, ho⟩ <;> simp [ho] at hu
    exact hu ▸ setBit_performed rfl _ _
  | bvOr vd vs => exact key _ h (fun u hu => combine_cases hu (fun _ _ => or_lt _ _ _) _ rfl)
  | bvAnd vd vs => exact key _ h (fun u hu => combine_cases hu (fun _ _ hx _ => and_lt _ _ _ hx) _ rfl)
  | bvClear vd => exact key _ h (fun u hu => clearSlot_cases hu _ rfl)
  | cvClear vd => exact key _ h (fun u hu => clearSlot_cases hu _ rfl)
  | bvIsempty vd =>
    refine key _ h (fun u hu => ?_)
    rcases slotOfKind_eq s .bit vd with ⟨v, -, -, ho⟩ | ⟨-, ho⟩ <;> simp [ho] at hu
    exact hu ▸ performedOn_respond _ _ _
  | cvInc vd x =>
    refine key _ h (fun u hu => ?_)
    rcases counterOperand_eq s vd x with ⟨v, -, -, -, ho⟩ | ⟨-, ho⟩ | ⟨v, -, -, -, ho⟩ <;> simp [ho] at hu
    rw [← hu]
    split
    · exact performedOn_respond _ _ _
    · exact writeCounter_performed rfl _ _
  | cvDec vd x =>
    refine key _ h (fun u hu => ?_)
    rcases counterOperand_eq s vd x with ⟨v, -, -, -, ho⟩ | ⟨-, ho⟩ | ⟨v, -, -, -, ho⟩ <;> simp [ho] at hu
    rw [← hu]
    split
    · exact performedOn_respond _ _ _
    · exact writeCounter_performed rfl _ _
  | cvGet vd x =>
    refine key _ h (fun u hu => ?_)
    rcases counterOperand_eq s vd x with ⟨v, -, -, -, ho⟩ | ⟨-, ho⟩ | ⟨v, -, -, -, ho⟩ <;> simp [ho] at hu
    exact hu ▸ performedOn_respond _ _ _
  | alignUp m =>
    refine key _ h (fun u hu => ?_)
    cases ha : alignUp s.width m <;> simp [ha] at hu
    exact hu ▸ performedOn_respond _ _ _
  | rdWord vd j =>
    refine key _ h (fun u hu => ?_)
    rcases wordOperand_eq s vd j with ⟨v, -, -, -, ho⟩ | ⟨-, ho⟩ | ⟨v, -, -, -, ho⟩ <;> simp [ho] at hu
    exact hu ▸ performedOn_respond _ _ _
  | reserved hdr => exact key (.error .illegalCommand) h (fun u hu => by cases hu)

/-- A step is one of five things. -/
theorem step_cases {s t : State} (h : step s = .next t) :
    (s.host = [] ∧ t = s.idle) ∨
    (∃ rest, s.host = .takeResponse :: rest ∧ t = { s.deliver with host := rest }) ∨
    (∃ rest, s.host = .reset :: rest ∧ t = { s.applyReset with host := rest }) ∨
    (∃ c rest, s.host = .command c :: rest ∧ s.port ≠ .responding ∧ exec (decode c) (s.accepted rest) = .next t) ∨
    (∃ first later rest c, s.host = .commandChanged first later :: rest ∧ s.port ≠ .responding ∧
      exec (decode c) (State.accepted { s with draws := s.draws + 1 } rest) = .next t) := by
  unfold step at h
  split at h
  · exact .inl ⟨‹_›, (Host.Outcome.next.inj h).symm⟩
  · rename_i c rest hh
    cases hp : s.port <;> simp only [State.offer, hp, reduceCtorEq] at h
    · exact .inr (.inr (.inr (.inl ⟨c, rest, hh, by decide, h⟩)))
    · exact .inr (.inr (.inr (.inl ⟨c, rest, hh, by decide, h⟩)))
  · rename_i first later rest hh
    cases hp : s.port <;> simp only [State.offer, hp, reduceCtorEq] at h
    · exact .inr (.inr (.inr (.inr ⟨first, later, rest, _, hh, by decide, h⟩)))
    · exact .inr (.inr (.inr (.inr ⟨first, later, rest, _, hh, by decide, h⟩)))
  · rename_i rest hh
    exact .inr (.inl ⟨rest, hh, (Host.Outcome.next.inj h).symm⟩)
  · rename_i rest hh
    exact .inr (.inr (.inl ⟨rest, hh, (Host.Outcome.next.inj h).symm⟩))

/-- A run that ends in a state has a first step that answers one. -/
theorem steps_succ_next {k : Nat} {s t : State} (h : steps (k + 1) s = .next t) :
    ∃ u, step s = .next u ∧ steps k u = .next t := by
  unfold steps at h
  cases hs : step s with
  | next u => rw [hs] at h; exact ⟨u, rfl, h⟩
  | fault r => rw [hs] at h; cases h
  | refused r => rw [hs] at h; cases h

end Sys2Proof.Machine
end

