-- ==== Sys2Proof/Laws/PerInstr.lean ====
section
/-! SUPPORT. A fact about every instruction as syntax: its encoded header lies in its own row of spec/opcode_table.json
under the mask 0xF00F, and a reserved header in none of the fifteen rows (R58, R56). -/
namespace Sys2Proof.Laws.HeaderMatch

open Sys2Proof

/-- The `match` value of an instruction's row; the reserved encoding has none. -/
def rowMatch : Instr → Option Hdr
  | .bvNew _ _ => some 0x0000
  | .bvSet _ _ => some 0x0001
  | .bvGet _ _ => some 0x0002
  | .bvGetset _ _ => some 0x0003
  | .bvOr _ _ => some 0x0004
  | .bvAnd _ _ => some 0x0005
  | .bvClear _ => some 0x0006
  | .bvIsempty _ => some 0x0007
  | .cvNew _ _ => some 0x0008
  | .cvInc _ _ => some 0x0009
  | .cvDec _ _ => some 0x000A
  | .cvGet _ _ => some 0x000B
  | .cvClear _ => some 0x000C
  | .alignUp _ => some 0x000D
  | .rdWord _ _ => some 0x000E
  | .reserved _ => none

/-- A well-formed instruction's header, under the mask 0xF00F, is its row's match value; a reserved one is above the
fifteen match values. -/
def Statement (i : Instr) : Prop :=
  i.wellFormed = true →
    (∀ m, rowMatch i = some m → (encode i).hdr &&& 0xF00F = m) ∧
    (rowMatch i = none → 15 ≤ ((encode i).hdr &&& 0xF00F).toNat)

/-- Neither handle field reaches under the mask. -/
theorem mkHdr_masked (op : BitVec 4) (vd vs : Handle) : mkHdr op vd vs &&& 0xF00F = op.setWidth 16 := by
  ext k hk; interval_cases k <;> simp [mkHdr]

theorem of_mkHdr {i : Instr} (op : BitVec 4) (vd vs : Handle) (he : (encode i).hdr = mkHdr op vd vs)
    (hm : rowMatch i = some (op.setWidth 16)) : Statement i := by
  refine fun _ => ⟨fun m h => ?_, fun h => by simp [hm] at h⟩
  rw [he, mkHdr_masked]
  exact Option.some.inj (hm.symm.trans h)

theorem bvNew (vd : Handle) (n : Arg) : Statement (.bvNew vd n) := of_mkHdr 0x0 vd 0 rfl rfl
theorem bvSet (vd : Handle) (i : Arg) : Statement (.bvSet vd i) := of_mkHdr 0x1 vd 0 rfl rfl
theorem bvGet (vd : Handle) (i : Arg) : Statement (.bvGet vd i) := of_mkHdr 0x2 vd 0 rfl rfl
theorem bvGetset (vd : Handle) (i : Arg) : Statement (.bvGetset vd i) := of_mkHdr 0x3 vd 0 rfl rfl
theorem bvOr (vd vs : Handle) : Statement (.bvOr vd vs) := of_mkHdr 0x4 vd vs rfl rfl
theorem bvAnd (vd vs : Handle) : Statement (.bvAnd vd vs) := of_mkHdr 0x5 vd vs rfl rfl
theorem bvClear (vd : Handle) : Statement (.bvClear vd) := of_mkHdr 0x6 vd 0 rfl rfl
theorem bvIsempty (vd : Handle) : Statement (.bvIsempty vd) := of_mkHdr 0x7 vd 0 rfl rfl
theorem cvNew (vd : Handle) (n : Arg) : Statement (.cvNew vd n) := of_mkHdr 0x8 vd 0 rfl rfl
theorem cvInc (vd : Handle) (i : Arg) : Statement (.cvInc vd i) := of_mkHdr 0x9 vd 0 rfl rfl
theorem cvDec (vd : Handle) (i : Arg) : Statement (.cvDec vd i) := of_mkHdr 0xA vd 0 rfl rfl
theorem cvGet (vd : Handle) (i : Arg) : Statement (.cvGet vd i) := of_mkHdr 0xB vd 0 rfl rfl
theorem cvClear (vd : Handle) : Statement (.cvClear vd) := of_mkHdr 0xC vd 0 rfl rfl
theorem alignUp (m : Arg) : Statement (.alignUp m) := of_mkHdr 0xD 0 0 rfl rfl
theorem rdWord (vd : Handle) (j : Arg) : Statement (.rdWord vd j) := of_mkHdr 0xE vd 0 rfl rfl

theorem reserved (hdr : Hdr) : Statement (.reserved hdr) := by
  refine fun hw => ⟨fun m h => (by cases h), fun _ => ?_⟩
  have hs : hdr.extractLsb' 12 4 ≠ 0 ∨ hdr.extractLsb' 0 4 = 0xF := by
    simpa [Instr.wellFormed] using hw
  have hn : ((hdr &&& 0xF00F).extractLsb' 12 4 = hdr.extractLsb' 12 4) ∧
      ((hdr &&& 0xF00F).extractLsb' 0 4 = hdr.extractLsb' 0 4) := by
    constructor <;> (ext k hk; interval_cases k <;> simp)
  rw [← hn.1, ← hn.2] at hs
  generalize hx : hdr &&& 0xF00F = x at hs
  show 15 ≤ (hdr &&& 0xF00F).toNat
  rw [hx]
  rcases hs with h | h
  · have h' : x.toNat / 2 ^ 12 % 2 ^ 4 ≠ 0 := fun h0 => h (BitVec.eq_of_toNat_eq (by simpa [Nat.shiftRight_eq_div_pow] using h0))
    omega
  · have h' : x.toNat % 2 ^ 4 = 15 := by simpa using congrArg BitVec.toNat h
    omega

end Sys2Proof.Laws.HeaderMatch
end

