-- ==== Sys2Proof/Laws/Views.lean ====
section
/-! SUPPORT. What the shared operations do to the views claims use: the flags and the counters of a slot. -/
namespace Sys2Proof.Machine

open Sys2Proof

/-- The views see the slots and the width, nothing else. -/
theorem slot?_congr {s t : State} (hs : t.slots = s.slots) (h : Handle) : t.slot? h = s.slot? h := by
  unfold State.slot?; rw [hs]

theorem word?_congr {s t : State} (hs : t.slots = s.slots) (h : Handle) (j : Nat) : t.word? h j = s.word? h j := by
  unfold State.word?; rw [slot?_congr hs]

theorem bit?_congr {s t : State} (hw : t.width = s.width) {h : Handle} (hs : t.slot? h = s.slot? h) (i : Nat) :
    t.bit? h i = s.bit? h i := by
  unfold State.bit? State.word?; rw [hs, hw]

theorem counter?_congr {s t : State} (hw : t.width = s.width) {h : Handle} (hs : t.slot? h = s.slot? h) (i : Nat) :
    t.counter? h i = s.counter? h i := by
  unfold State.counter? State.word?; rw [hs, hw]

/-! A response changes no view. -/

@[simp] theorem slot?_respond (s : State) (st : BitVec 4) (r : BitVec 64) (h : Handle) : (s.respond st r).slot? h = s.slot? h := rfl

@[simp] theorem kind?_respond (s : State) (st : BitVec 4) (r : BitVec 64) (h : Handle) : (s.respond st r).kind? h = s.kind? h := rfl

@[simp] theorem word?_respond (s : State) (st : BitVec 4) (r : BitVec 64) (h : Handle) (j : Nat) :
    (s.respond st r).word? h j = s.word? h j := rfl

@[simp] theorem bit?_respond (s : State) (st : BitVec 4) (r : BitVec 64) (h : Handle) (i : Nat) :
    (s.respond st r).bit? h i = s.bit? h i := rfl

@[simp] theorem counter?_respond (s : State) (st : BitVec 4) (r : BitVec 64) (h : Handle) (i : Nat) :
    (s.respond st r).counter? h i = s.counter? h i := rfl

@[simp] theorem slot?_okResponse (s : State) (r : BitVec 64) (h : Handle) : (s.okResponse r).slot? h = s.slot? h := rfl

@[simp] theorem kind?_okResponse (s : State) (r : BitVec 64) (h : Handle) : (s.okResponse r).kind? h = s.kind? h := rfl

@[simp] theorem word?_okResponse (s : State) (r : BitVec 64) (h : Handle) (j : Nat) :
    (s.okResponse r).word? h j = s.word? h j := rfl

@[simp] theorem bit?_okResponse (s : State) (r : BitVec 64) (h : Handle) (i : Nat) :
    (s.okResponse r).bit? h i = s.bit? h i := rfl

@[simp] theorem counter?_okResponse (s : State) (r : BitVec 64) (h : Handle) (i : Nat) :
    (s.okResponse r).counter? h i = s.counter? h i := rfl

/-- A word exists exactly below the length. -/
theorem word?_isSome_of_lt {s : State} {h : Handle} {v : Slot} (hv : s.slot? h = some v) {j : Nat} (hj : j < v.len) :
    ∃ x, s.word? h j = some x := by
  rw [word?_of_slot hv]; exact ⟨_, List.getElem?_eq_getElem hj⟩

theorem bit?_isSome_of_lt {s : State} {h : Handle} {v : Slot} (hv : s.slot? h = some v) {i : Nat}
    (hi : i < v.len * s.width.bits) : ∃ x, s.word? h (i / s.width.bits) = some x ∧
      s.bit? h i = some (x.getLsbD (i % s.width.bits)) := by
  obtain ⟨x, hx⟩ := word?_isSome_of_lt hv (div_lt_len (bits_pos _) hi)
  exact ⟨x, hx, by simp [State.bit?, hx]⟩

/-- A counter in range is the nibble `counterAt` reads. -/
theorem counter?_of_word {s : State} {h : Handle} {i : Nat} {x : Word}
    (hx : s.word? h (i / s.width.counters) = some x) :
    s.counter? h i = some (counterAt s.width x (i % s.width.counters)).toNat := by
  simp [State.counter?, hx, counterAt_toNat]

theorem counter?_eq_map (s : State) (h : Handle) (i : Nat) :
    s.counter? h i =
      (s.word? h (i / s.width.counters)).map (fun x => (counterAt s.width x (i % s.width.counters)).toNat) := by
  simp [State.counter?, counterAt_toNat]

theorem bit?_memWrite (s : State) (g h : Handle) (j i : Nat) (x : Word) :
    (s.memWrite h j x).bit? g i =
      if g = h ∧ i / s.width.bits = j then (s.bit? g i).map (fun _ => x.getLsbD (i % s.width.bits)) else s.bit? g i := by
  unfold State.bit?
  rw [State.memWrite_width, word?_memWrite]
  split <;> simp [Function.comp_def]

theorem counter?_memWrite (s : State) (g h : Handle) (j i : Nat) (x : Word) :
    (s.memWrite h j x).counter? g i =
      if g = h ∧ i / s.width.counters = j then
        (s.counter? g i).map (fun _ => (counterAt s.width x (i % s.width.counters)).toNat)
      else s.counter? g i := by
  rw [counter?_eq_map, counter?_eq_map, State.memWrite_width, word?_memWrite]
  split <;> simp [Function.comp_def]

/-- Setting a flag: it is then 1, and every other flag of every slot is as before. -/
theorem bit?_setBit (s : State) (g h : Handle) (i k : Nat) :
    (s.setBit h (bitPlace s.width i)).bit? g k =
      if g = h ∧ k = i then (s.bit? g k).map (fun _ => true) else s.bit? g k := by
  have h64 := bits_le_64 s.width
  have hm : i % s.width.bits < 64 := lt_of_lt_of_le (Nat.mod_lt _ (bits_pos _)) h64
  unfold State.setBit
  rw [bit?_memWrite, bitPlace_word, bitPlace_pos]
  by_cases hg : g = h
  · subst hg
    by_cases hw : k / s.width.bits = i / s.width.bits
    · rw [if_pos ⟨rfl, hw⟩]
      cases hx : s.word? g (i / s.width.bits) with
      | none => simp [State.bit?, hw, hx]
      | some x =>
        rw [memRead_of_word hx, setBit_getLsbD _ _ _ hm]
        by_cases hk : k = i
        · subst hk; simp
        · have : k % s.width.bits ≠ i % s.width.bits := fun hmod => hk (index_ext hw hmod)
          simp [State.bit?, hw, hx, hk, this]
    · rw [if_neg (fun hc => hw hc.2), if_neg (fun hc => hw (by rw [hc.2]))]
  · simp [hg]

/-- Writing a counter: it then has the value written, and every other counter of every slot is as before. -/
theorem counter?_writeCounter (s : State) (g h : Handle) (i k : Nat) (c : BitVec 4) :
    (s.writeCounter h (counterPlace s.width i) c).counter? g k =
      if g = h ∧ k = i then (s.counter? g k).map (fun _ => c.toNat) else s.counter? g k := by
  have hS := counters_pos s.width
  unfold State.writeCounter
  rw [counter?_memWrite, counterPlace_word, counterPlace_pos]
  by_cases hg : g = h
  · subst hg
    by_cases hw : k / s.width.counters = i / s.width.counters
    · rw [if_pos ⟨rfl, hw⟩]
      by_cases hk : k = i
      · subst hk; simp [counterAt_withCounterSet_same]
      · have hmod : k % s.width.counters ≠ i % s.width.counters := fun hmod => hk (index_ext hw hmod)
        rw [if_neg (fun hc => hk hc.2),
          counterAt_withCounterSet_other _ _ _ _ _ (Nat.mod_lt _ hS) (Nat.mod_lt _ hS) hmod]
        cases hx : s.word? g (i / s.width.counters) with
        | none => simp [counter?_eq_map, hw, hx]
        | some x => simp [counter?_eq_map, hw, hx, memRead_of_word hx]
    · rw [if_neg (fun hc => hw hc.2), if_neg (fun hc => hw (by rw [hc.2]))]
  · simp [hg]

/-- Writing a word that is there already changes nothing. -/
theorem memWrite_self {s : State} {h : Handle} {j : Nat} {x : Word} (hx : s.word? h j = some x) : s.memWrite h j x = s := by
  have : s.slots.modify h.toNat (fun v => { v with words := v.words.set j x }) = s.slots := by
    apply List.ext_getElem?
    intro n
    rw [List.getElem?_modify]
    by_cases hn : h.toNat = n
    · subst hn
      unfold State.word? State.slot? at hx
      cases hv : s.slots[h.toNat]? with
      | none => simp
      | some v =>
        rw [hv] at hx
        obtain ⟨hlt, he⟩ := List.getElem?_eq_some_iff.mp hx
        simp [← he]
    · simp [hn]
  unfold State.memWrite
  rw [this]

/-- Setting a flag that is 1 changes nothing. -/
theorem setBit_self {s : State} {h : Handle} {i : Nat} (hb : s.bit? h i = some true) :
    s.setBit h (bitPlace s.width i) = s := by
  unfold State.bit? at hb
  cases hx : s.word? h (i / s.width.bits) with
  | none => simp [hx] at hb
  | some x =>
    simp only [hx, Option.map_some, Option.some.injEq] at hb
    have hm : i % s.width.bits < 64 := lt_of_lt_of_le (Nat.mod_lt _ (bits_pos _)) (bits_le_64 _)
    unfold State.setBit
    rw [bitPlace_word, bitPlace_pos, memRead_of_word hx, setBit_of_set x _ hm hb]
    exact memWrite_self hx

/-- The frame of a word write followed by the response OK. -/
theorem sameButSlot_memWrite (s : State) (h : Handle) (j : Nat) (x : Word) (r : BitVec 64) :
    SameButSlot h s ((s.memWrite h j x).respond statusOk r) where
  width := rfl
  maxWords := rfl
  numVectors := by simp
  slots := fun g hg => by
    rw [slot?_respond, slot?_memWrite, if_neg hg]
  faulted := rfl
  faultCode := rfl
  port := rfl
  host := rfl
  draws := rfl

/-- The frame of a whole-slot write followed by the response OK. -/
theorem sameButSlot_setWords (s : State) (h : Handle) (ws : List Word) (r : BitVec 64) :
    SameButSlot h s ((s.setWords h ws).respond statusOk r) where
  width := rfl
  maxWords := rfl
  numVectors := by simp
  slots := fun g hg => by
    rw [slot?_respond, slot?_setWords, if_neg hg]
  faulted := rfl
  faultCode := rfl
  port := rfl
  host := rfl
  draws := rfl

/-- The frame of an allocation followed by the response OK. -/
theorem sameButSlot_setSlot (s : State) (h : Handle) (v : Slot) (r : BitVec 64) :
    SameButSlot h s ((s.setSlot h v).respond statusOk r) where
  width := rfl
  maxWords := rfl
  numVectors := by simp
  slots := fun g hg => by
    rw [slot?_respond, slot?_setSlot_other v hg]
  faulted := rfl
  faultCode := rfl
  port := rfl
  host := rfl
  draws := rfl

/-- A response of OK that changes no slot leaves every slot. -/
theorem sameButSlot_respond (s : State) (h : Handle) (r : BitVec 64) : SameButSlot h s (s.respond statusOk r) where
  width := rfl
  maxWords := rfl
  numVectors := rfl
  slots := fun _ _ => rfl
  faulted := rfl
  faultCode := rfl
  port := rfl
  host := rfl
  draws := rfl

end Sys2Proof.Machine
end

