-- ==== Sys2Proof/Tests/Slice0.lean ====
section
/-! SUPPORT. Tests: expected results are the spec's own vectors (95_test_vectors.md) or worked examples, cited at each
test; and a witness for the hypotheses of every statement of Obligations.lean. -/
namespace Sys2Proof.Tests

open Sys2Proof Sys2Proof.Machine

/-! ## Helpers -/

/-- A small state of width `w` (NV = the number of slots, MAX_WORDS = 8, the test configuration of 95_test_vectors.md). -/
def mk (w : Width) (slots : Memory) : State :=
  { State.afterReset ⟨w, 4, 8⟩ with slots := slots, port := .ready }

/-- The same, faulted by the code `c`. -/
def mkFaulted (c : BitVec 4) (slots : Memory) : State :=
  { mk .w64 slots with faulted := true, faultCode := c, status := c }

/-- One command, from its `HDR:ARG`. -/
def run (s : State) (hdr : Hdr) (arg : Arg) : Host.Outcome State Fault Refusal := exec (decode ⟨hdr, arg⟩) s

/-- The command answers STATUS `st` and RESULT `r`, leaves the slots `m`, and does not fault the block. -/
def answers (o : Host.Outcome State Fault Refusal) (st : BitVec 4) (r : BitVec 64) (m : Memory) : Bool :=
  match o with
  | .next t => t.status == st && t.result == r && t.slots == m && !t.faulted
  | .fault _ => false
  | .refused _ => false

/-- The command faults the block with `code`: STATUS and FAULT_CODE are the code, RESULT is 0, the slots are `m`. -/
def faults (o : Host.Outcome State Fault Refusal) (code : BitVec 4) (m : Memory) : Bool :=
  match o with
  | .next t => t.status == code && t.result == 0 && t.slots == m && t.faulted && t.faultCode == code
  | .fault _ => false
  | .refused _ => false

def bitSlot (ws : List Word) : Slot := ⟨.bit, ws⟩
def ctrSlot (ws : List Word) : Slot := ⟨.ctr, ws⟩
def noSlot : Slot := Slot.unallocated

/-- The start of L2-G. -/
def memG : Memory := [bitSlot [0], ctrSlot [0], bitSlot [0, 0], noSlot]
def sG : State := mk .w64 memG

/-- The start of L2-C. -/
def memC : Memory := [bitSlot [0x5, 0x0], bitSlot [0x3, 0x80], bitSlot [0], bitSlot []]
def sC : State := mk .w64 memC

/-! ## WellFormed: the ill-formed terms -/

theorem test_wf_refuses_a_legal_header : (Instr.reserved 0x0002).wellFormed = false := by decide
theorem test_wf_refuses_the_last_legal_header : (Instr.reserved 0x0FFE).wellFormed = false := by decide
theorem test_wf_accepts_reserved_op : (Instr.reserved 0x000F).wellFormed = true := by decide
theorem test_wf_accepts_reserved_rsv : (Instr.reserved 0x1002).wellFormed = true := by decide
theorem test_wf_accepts_every_handle : (Instr.bvOr 15 15).wellFormed = true := by decide

/-! ## Decoding: headers written out as `rrrr ssss dddd oooo` (R50), from R51 and the spec's examples -/

theorem test_decode_bvNew : decode ⟨0b0000000000000000, 2⟩ = .bvNew 0 2 := by decide
theorem test_decode_bvSet : decode ⟨0b0000000000000001, 0x46⟩ = .bvSet 0 70 := by decide
theorem test_decode_bvGet : decode ⟨0b0000000000110010, 0⟩ = .bvGet 3 0 := by decide
theorem test_decode_bvGetset : decode ⟨0b0000000000000011, 0x64⟩ = .bvGetset 0 100 := by decide
theorem test_decode_bvOr : decode ⟨0b0000001000010100, 0⟩ = .bvOr 1 2 := by decide
theorem test_decode_bvAnd : decode ⟨0b0000000100110101, 0⟩ = .bvAnd 3 1 := by decide
theorem test_decode_bvClear : decode ⟨0b0000000000000110, 0x1234⟩ = .bvClear 0 := by decide
theorem test_decode_bvIsempty : decode ⟨0b0000000000100111, 0⟩ = .bvIsempty 2 := by decide
theorem test_decode_cvNew : decode ⟨0b0000000000111000, 9⟩ = .cvNew 3 9 := by decide
theorem test_decode_cvInc : decode ⟨0b0000000000011001, 5⟩ = .cvInc 1 5 := by decide
theorem test_decode_cvDec : decode ⟨0b0000000000011010, 9⟩ = .cvDec 1 9 := by decide
theorem test_decode_cvGet : decode ⟨0b0000000000011011, 0x20⟩ = .cvGet 1 32 := by decide
theorem test_decode_cvClear : decode ⟨0b0000000000011100, 0⟩ = .cvClear 1 := by decide
theorem test_decode_alignUp : decode ⟨0b0000111111111101, 1⟩ = .alignUp 1 := by decide
theorem test_decode_rdWord : decode ⟨0b0000000000011110, 0⟩ = .rdWord 1 0 := by decide
theorem test_decode_reserved_op : decode ⟨0b0000000000001111, 0⟩ = .reserved 0x000F := by decide
theorem test_decode_reserved_rsv : decode ⟨0b0001000000000010, 0⟩ = .reserved 0x1002 := by decide

/-- A 16-bit table row, and a whole command with its ARG above the header. -/
theorem test_decodeTableWord : decodeTableWord 16 0x0104 = some (.bvOr 0 1) ∧
    decodeTableWord 80 0x460001 = some (.bvSet 0 70) ∧ decodeTableWord 16 0xFFFF0003 = some (.bvGetset 0 0) ∧
    decodeTableWord 81 0 = none := by decide

theorem test_encode : encode (.bvSet 0 70) = ⟨0x0001, 0x46⟩ ∧ encode (.bvOr 0 1) = ⟨0x0104, 0⟩ ∧
    encode (.alignUp 1) = ⟨0x000D, 1⟩ := by decide

/-- R60's listing of `BV_SET v0, 70`. -/
theorem test_listing : (encode (.bvSet 0 70)).listing = "0x0001:0x0000000000000046".toList := by decide

/-- R60: operands in the order VD, VS, ARG; fields not written are 0; another shape is no line. -/
theorem test_assemble : assemble ⟨"BV_AND", [.slot 3, .slot 1]⟩ = some ⟨0x0135, 0⟩ ∧
    assemble ⟨"ALIGN_UP", [.imm 100]⟩ = some ⟨0x000D, 0x64⟩ ∧ assemble ⟨"CV_CLEAR", [.slot 1, .imm 0]⟩ = none := by decide

/-! ## The commands -/

/-- L2-G17: a CTR slot becomes BIT; L2-G13. -/
theorem test_bvNew : answers (run sG 0x0010 1) 0x0 0 [bitSlot [0], bitSlot [0], bitSlot [0, 0], noSlot] ∧
    answers (run sG 0x0000 9) 0x2 0 memG := by decide
/-- L2-G15: the handle check comes before the capacity check. L1-8: no words at all. -/
theorem test_bvNew_handle : faults (run sG 0x0040 0x64) 0x9 memG ∧
    answers (run sG 0x0000 0) 0x0 0 [bitSlot [], ctrSlot [0], bitSlot [0, 0], noSlot] := by decide

/-- L2-A4 and L2-B4: bit 70 is in word 1 for W = 64 and in word 2 for W = 32; L2-A5, the last bit. -/
theorem test_bvSet : answers (run (mk .w64 [bitSlot [0x8000000000000001, 0x1, 0x0]]) 0x0001 0x46) 0x0 0
      [bitSlot [0x8000000000000001, 0x41, 0x0]] ∧
    answers (run (mk .w32 [bitSlot [0x80000001, 0x1, 0x0]]) 0x0001 0x46) 0x0 0 [bitSlot [0x80000001, 0x1, 0x40]] ∧
    answers (run (mk .w64 [bitSlot [0, 0, 0]]) 0x0001 191) 0x0 0 [bitSlot [0, 0, 0x8000000000000000]] := by decide
/-- L2-A16, L2-B10 and L2-G19: the bound is the bit count; L2-G4; L2-G18, an ignored VS. -/
theorem test_bvSet_errors : faults (run (mk .w64 [bitSlot [0, 0, 0]]) 0x0001 192) 0x8 [bitSlot [0, 0, 0]] ∧
    faults (run (mk .w32 [bitSlot [0, 0, 0]]) 0x0001 96) 0x8 [bitSlot [0, 0, 0]] ∧
    faults (run sG 0x0001 0xFFFFFFFFFFFFFFFF) 0x8 memG ∧ faults (run sG 0x0011 0) 0x9 memG ∧
    answers (run sG 0x0F01 5) 0x0 0 [bitSlot [0x20], ctrSlot [0], bitSlot [0, 0], noSlot] := by decide

/-- R64's example: 70 reads 1, 6 reads 0. -/
theorem test_bvGet : answers (run (mk .w64 [bitSlot [0x0, 0x40]]) 0x0002 70) 0x0 1 [bitSlot [0x0, 0x40]] ∧
    answers (run (mk .w64 [bitSlot [0x0, 0x40]]) 0x0002 6) 0x0 0 [bitSlot [0x0, 0x40]] := by decide
/-- L2-G6: a NONE slot. -/
theorem test_bvGet_none : faults (run sG 0x0032 0) 0x9 memG := by decide

/-- L2-A10 and L2-A11; L2-B9. -/
theorem test_bvGetset : answers (run (mk .w64 [bitSlot [1, 0x41]]) 0x0003 70) 0x0 1 [bitSlot [1, 0x41]] ∧
    answers (run (mk .w64 [bitSlot [1, 0x41]]) 0x0003 71) 0x0 0 [bitSlot [1, 0xC1]] ∧
    answers (run (mk .w32 [bitSlot [0, 1, 0x80000040]]) 0x0003 71) 0x0 0 [bitSlot [0, 1, 0x800000C0]] := by decide

/-- L2-C1, L2-C2 and L2-C9; L2-C6, the size check; L2-C8, two empty slots. -/
theorem test_bvOr : answers (run sC 0x0104 0xFFFFFFFFFFFFFFFF) 0x0 0 (bitSlot [0x7, 0x80] :: memC.drop 1) ∧
    answers (run sC 0x0014 0) 0x0 0 (bitSlot [0x5, 0] :: bitSlot [0x7, 0x80] :: memC.drop 2) ∧
    answers (run sC 0x0204 0) 0x1 0 memC ∧ answers (run sC 0x0334 0) 0x0 0 memC := by decide
/-- L2-G8 to L2-G11: handles and kinds come before the size check. -/
theorem test_bvOr_errors : faults (run sG 0x0404 0) 0x9 memG ∧ faults (run sG 0x0104 0) 0x9 memG ∧
    faults (run sG 0x0214 0) 0x9 memG ∧ faults (run sG 0x0244 0) 0x9 memG := by decide
/-- L2-C3, L2-C5 and L2-C7. -/
theorem test_bvAnd : answers (run sC 0x0105 0) 0x0 0 (bitSlot [0x1, 0x0] :: memC.drop 1) ∧
    answers (run sC 0x0115 0) 0x0 0 memC ∧ answers (run sC 0x0025 0) 0x1 0 memC := by decide
/-- L2-G21: ARG is ignored, and the length stays. -/
theorem test_bvClear : answers (run sC 0x0016 0x1234) 0x0 0 (bitSlot [5, 0] :: bitSlot [0, 0] :: memC.drop 2) := by decide
/-- L1-8: words, not bits; after reset v0 is NONE (L2-G25). -/
theorem test_bvIsempty : answers (run sC 0x0037 0) 0x0 1 memC ∧ answers (run sG 0x0027 0) 0x0 0 memG ∧
    faults (run State.reset 0x0007 0) 0x9 State.reset.slots := by decide

/-- L2-G16: exactly MAX_WORDS; L2-G14. -/
theorem test_cvNew : answers (run sG 0x0018 8) 0x0 0
      [bitSlot [0], ctrSlot [0, 0, 0, 0, 0, 0, 0, 0], bitSlot [0, 0], noSlot] ∧
    answers (run sG 0x0038 9) 0x2 0 memG := by decide
/-- L2-D1, L2-D5 and L2-E5. -/
theorem test_cvInc : answers (run (mk .w64 [ctrSlot [0, 0]]) 0x0009 0) 0x0 0 [ctrSlot [0x1000000000000000, 0]] ∧
    answers (run (mk .w64 [ctrSlot [0x1100000001000001, 0]]) 0x0009 16) 0x0 0
      [ctrSlot [0x1100000001000001, 0x1000000000000000]] ∧
    answers (run (mk .w32 [ctrSlot [0x11000001, 0x10000000]]) 0x0009 9) 0x0 0
      [ctrSlot [0x11000001, 0x11000000]] := by decide
/-- L1-2: a counter at 15 stays; L2-G5, a BIT slot; the bound (L2-E12). -/
theorem test_cvInc_saturates : answers (run (mk .w64 [ctrSlot [0x00000F0000000000]]) 0x0009 5) 0x0 0
      [ctrSlot [0x00000F0000000000]] ∧
    faults (run sG 0x0009 0) 0x9 memG ∧ faults (run (mk .w32 [ctrSlot [0, 0]]) 0x0009 16) 0x8 [ctrSlot [0, 0]] := by decide
/-- L2-D9, L2-D12 and L2-E9. -/
theorem test_cvDec : answers (run (mk .w64 [ctrSlot [0x110000000F000001]]) 0x000A 9) 0x0 0
      [ctrSlot [0x110000000E000001]] ∧
    answers (run (mk .w64 [ctrSlot [0x010000000E000001]]) 0x000A 0) 0x0 0 [ctrSlot [0x010000000E000001]] ∧
    answers (run (mk .w32 [ctrSlot [0x11000001, 0x1F000001]]) 0x000A 9) 0x0 0
      [ctrSlot [0x11000001, 0x1E000001]] := by decide
/-- L2-D10 and L2-E8; L2-D16. -/
theorem test_cvGet : answers (run (mk .w64 [ctrSlot [0x110000000E000001, 0]]) 0x000B 9) 0x0 14
      [ctrSlot [0x110000000E000001, 0]] ∧
    answers (run (mk .w32 [ctrSlot [0x11000001, 0x1F000001]]) 0x000B 9) 0x0 15 [ctrSlot [0x11000001, 0x1F000001]] ∧
    faults (run (mk .w64 [ctrSlot [0, 0]]) 0x000B 32) 0x8 [ctrSlot [0, 0]] := by decide
/-- L2-D15 and R78's example. -/
theorem test_cvClear : answers (run (mk .w64 [ctrSlot [0xF000000000000001, 7]]) 0x000C 0) 0x0 0 [ctrSlot [0, 0]] := by
  decide

/-- L1-1, L2-F1, L2-F8 and L2-F13: both widths. -/
theorem test_alignUp : answers (run sG 0x000D 0x3921A36E) 0x0 0x3921A380 memG ∧
    answers (run (mk .w32 memG) 0x000D 0x3921A36E) 0x0 0x3921A380 memG ∧
    answers (run sG 0x000D 0) 0x0 0 memG ∧ answers (run sG 0x000D 65) 0x0 128 memG ∧
    answers (run (mk .w32 memG) 0x000D 65) 0x0 96 memG := by decide
/-- L2-F11, L2-F13, L2-F14 and L2-F15, at the top of the range. -/
theorem test_alignUp_top : answers (run sG 0x000D 0xFFFFFFFFFFFFFFC0) 0x0 0xFFFFFFFFFFFFFFC0 memG ∧
    answers (run sG 0x000D 0xFFFFFFFFFFFFFFC1) 0x3 0 memG ∧
    answers (run (mk .w32 memG) 0x000D 0xFFFFFFFFFFFFFFC1) 0x0 0xFFFFFFFFFFFFFFE0 memG ∧
    answers (run (mk .w32 memG) 0x000D 0xFFFFFFFFFFFFFFE1) 0x3 0 memG := by decide
/-- L2-A9, R70's example and L2-G20. -/
theorem test_rdWord : answers (run (mk .w64 [bitSlot [1, 0x41, 0x8000000000000000]]) 0x000E 2) 0x0 0x8000000000000000
      [bitSlot [1, 0x41, 0x8000000000000000]] ∧
    answers (run (mk .w64 [ctrSlot [0x1000000000000000]]) 0x000E 0) 0x0 0x1000000000000000
      [ctrSlot [0x1000000000000000]] ∧
    faults (run sG 0x000E 1) 0x8 memG ∧ faults (run sG 0x003E 0) 0x9 memG := by decide
/-- L2-G1, L2-G2 and L2-G3. -/
theorem test_reserved : faults (run sG 0x000F 0) 0x9 memG ∧ faults (run sG 0x1002 0) 0x9 memG ∧
    faults (run sG 0x0041 0) 0x9 memG := by decide

/-- L2-G22 to L2-G24: refused while FAULTED = 1, the code kept. -/
theorem test_refused_while_faulted : run (mkFaulted 0x9 memG) 0x000D 1 =
      .next { mkFaulted 0x9 memG with status := 0xF, result := 0x9 } ∧
    run (mkFaulted 0x8 memG) 0x000F 0 = .next { mkFaulted 0x8 memG with status := 0xF, result := 0x8 } := ⟨rfl, rfl⟩

/-! ## Packing: the samples of L1-9 -/

theorem test_withCounterSet : withCounterSet .w64 0xFFFFFFFFFFFFFFFF 3 0 = 0xFFF0FFFFFFFFFFFF ∧
    withCounterSet .w64 0x0 0 15 = 0xF000000000000000 ∧
    withCounterSet .w64 0x123456789ABCDEF0 15 0xA = 0x123456789ABCDEFA ∧
    withCounterSet .w32 0xFFFFFFFF 3 0 = 0xFFF0FFFF ∧ withCounterSet .w32 0x0 0 15 = 0xF0000000 ∧
    withCounterSet .w32 0x9ABCDEF0 7 0xA = 0x9ABCDEFA := by decide
theorem test_counterAt : counterAt .w64 0x123456789ABCDEF0 0 = 0x1 ∧ counterAt .w64 0x123456789ABCDEF0 5 = 0x6 ∧
    counterAt .w64 0x123456789ABCDEF0 15 = 0x0 ∧ counterAt .w32 0x9ABCDEF0 0 = 0x9 ∧
    counterAt .w32 0x9ABCDEF0 7 = 0x0 := by decide
/-- The views claims use: counter 9 of L2-D6, bit 70 of L2-A4. -/
theorem test_views : (mk .w64 [ctrSlot [0x1100000001000001, 0]]).counter? 0 9 = some 1 ∧
    (mk .w32 [ctrSlot [0x11000001, 0x1F000001]]).counter? 0 9 = some 15 ∧
    (mk .w64 [bitSlot [1, 0x40]]).bit? 0 70 = some true ∧ (mk .w64 [bitSlot [1, 0x40]]).bit? 0 128 = none := by decide

/-! ## Steps -/

/-- The first step after reset raises `cmd_ready` (R99). -/
theorem test_step_reset_idle : step State.reset = .next { State.reset with port := .ready } := rfl

/-- Program P2 step 1 placed as the first command: it is accepted, and its response is on offer (R55). -/
theorem test_withFetchWord : step (State.reset.withFetchWord 80 0x20000) =
    .next { State.reset with slots := [bitSlot [0, 0], noSlot, noSlot, noSlot], port := .responding } := rfl

/-- Program P4 step 12: reset leaves the fault state and every slot NONE, and withdraws the response (R99, R100). -/
theorem test_step_reset : step { mkFaulted 0x9 memG with host := [.reset], port := .responding } = .next State.reset :=
  rfl

/-- 93 I14: a second command before the response is taken. -/
theorem test_step_stuck : step { sG with host := [.command ⟨0x000D, 1⟩], port := .responding } =
    .fault .responsePending := rfl

/-- Taking the response makes the block ready, and STATUS and RESULT stay (R25, R55). -/
theorem test_step_take : step { sG with host := [.takeResponse], port := .responding, result := 7 } =
    .next { sG with result := 7 } := rfl

theorem test_reset_memory_wf : Memory.wf State.reset.width State.reset.maxWords State.reset.slots = true := by decide

/-! ## Witnesses: each statement's hypotheses are met -/

/-- `sG` with a run of the host's. -/
def sRun (acts : List HostAction) : State := { sG with host := acts }

/-- A response on offer. -/
def sOffer (acts : List HostAction) : State := { sG with host := acts, port := .responding }

def cInc : Command := ⟨0x0019, 15⟩
def cBad : Command := ⟨0x000F, 0⟩

theorem witness_DecodeOfEncodeIsIdentity : (Instr.bvOr 15 15).wellFormed = true ∧
    (Instr.reserved 0xFFFF).wellFormed = true ∧ (Instr.alignUp 0xFFFFFFFFFFFFFFFF).wellFormed = true := by decide

/-- Both reserved clauses and the legal one at their boundary headers. -/
theorem witness_ReservedHeadersAreIllegal : (0x1000 : Hdr).toNat / 2 ^ 12 ≠ 0 ∧ (0x000F : Hdr).toNat % 16 = 15 ∧
    ((0x0FFE : Hdr).toNat / 2 ^ 12 = 0 ∧ (0x0FFE : Hdr).toNat % 16 ≠ 15) ∧ sG.faulted = false := by decide

/-- A command that ignores VS, the one that ignores VD too, and one that ignores ARG. -/
theorem witness_IgnoredFieldsChangeNothing : ((0x3 : BitVec 4) ≠ 0x4 ∧ (0x3 : BitVec 4) ≠ 0x5) ∧
    (0xC : BitVec 4) = 0xC ∧ (0xD : BitVec 4) = 0xD ∧
    run sG 0x0F01 5 = run sG 0x0001 5 ∧ run sG 0x0FFD 1 = run sG 0x000D 1 ∧ run sG 0x0006 0x1234 = run sG 0x0006 0 :=
  ⟨by decide, rfl, rfl, rfl, rfl, rfl⟩

theorem witness_AssemblerAgreesWithEncoder :
    disassemble (.rdWord 15 3) = some ⟨"RD_WORD", [.slot 15, .imm 3]⟩ := rfl

/-- From a block that is ready, and from one just reset. -/
theorem witness_StepRunsTheOfferedCommand : (sRun [.command cInc, .takeResponse]).port ≠ .responding ∧
    (sRun [.command cInc, .takeResponse]).host = [.command cInc, .takeResponse] ∧
    { State.reset with host := [.command cBad] }.port ≠ .responding := by decide

/-- At the longest form and at the table's own length. -/
theorem witness_StepRunsThePlacedWord : decodeTableWord 80 0xF0019 = some (.cvInc 1 15) ∧
    decodeTableWord 16 0xF00F = some (.reserved 0xF00F) := by decide

theorem witness_EveryAcceptedCommandCompletes : (sRun [.command cBad]).host = [.command cBad] ∧
    (sRun [.command cBad]).outputs.rspValid = false ∧ (sOffer [.command cBad]).host = [.command cBad] ∧
    (sOffer [.command cBad]).outputs.rspValid = true := by decide

/-- The three ways on: idle, taking the response, reset. -/
theorem witness_ResponseIsHeldUntilTaken : (sOffer []).port = .responding ∧ step (sOffer []) = .next (sOffer []) ∧
    step (sOffer [.takeResponse]) = .next sG ∧ ∃ t, step (sOffer [.reset]) = .next t ∧ t.port = .inReset :=
  ⟨rfl, rfl, rfl, _, rfl, rfl⟩

/-- No host action in each phase of the port, taking a response with one and with none on offer, and a run of three
steps: two takings and an idle step. -/
theorem witness_ResponseIsKeptUntilTheNextCommand : (sRun []).host = [] ∧ (sRun []).port = .ready ∧
    (sOffer []).host = [] ∧ State.reset.host = [] ∧ State.reset.port = .inReset ∧
    (sOffer [.takeResponse]).host = [.takeResponse] ∧ (sRun [.takeResponse]).host = [.takeResponse] ∧
    ∀ a ∈ (sOffer [.takeResponse, .takeResponse]).host.take 3, a = .takeResponse := by decide

theorem witness_ChangedCommandIsOneOfThosePresented :
    (sRun [.commandChanged cInc [cBad]]).host = [.commandChanged cInc [cBad]] ∧
    (sRun [.commandChanged cInc []]).host = [.commandChanged cInc []] := by decide

theorem witness_ResetValues : (3 : Handle).toNat < Config.testInstance.numVectors ∧
    (15 : Handle).toNat < (Config.mk .w32 16 1).numVectors := by decide

/-- A reset with nothing after it, a reset and then a command, and the step that clears FAULTED. -/
theorem witness_ResetStep : (sOffer [.reset]).host = [.reset] ∧ (sRun [.reset, .command cInc]).host = [.reset, .command cInc] ∧
    (3 : Handle).toNat < sG.numVectors ∧ { mkFaulted 0x9 memG with host := [.reset] }.faulted = true ∧
    ∃ t, step { mkFaulted 0x9 memG with host := [.reset] } = .next t ∧ t.faulted = false :=
  ⟨rfl, rfl, by decide, rfl, _, rfl, rfl⟩

theorem witness_ParametersAreFixed : ∃ t, step (sRun [.command cInc]) = .next t := ⟨_, rfl⟩

theorem sG_inv : sG.Inv := by decide

/-- The invariant holds, and a command, a fatal command and a reset step on. -/
theorem witness_InvariantKeptByEveryStep : (sRun [.command cInc]).Inv ∧ (∃ t, step (sRun [.command cInc]) = .next t) ∧
    (sRun [.command cBad]).Inv ∧ (∃ t, step (sRun [.command cBad]) = .next t ∧ t.faulted = true) ∧
    (sOffer [.reset]).Inv ∧ ∃ t, step (sOffer [.reset]) = .next t :=
  ⟨by decide, ⟨_, rfl⟩, by decide, ⟨_, rfl, rfl⟩, by decide, _, rfl⟩

/-- The ends of the ranges of R10 and R11. -/
theorem witness_InvariantAfterReset : (Config.mk .w32 2 1).Legal ∧ (Config.mk .w64 16 (2 ^ 58)).Legal ∧
    (Config.mk .w32 16 (2 ^ 59)).Legal := by decide

theorem witness_FaultedBlockRefusesEveryCommand : (mkFaulted 0x9 memG).faulted = true := rfl

/-- Both fatal codes, and a faulted block that steps without a reset. -/
theorem witness_FaultIsStickyUntilReset : (∃ t, exec (.bvSet 0 64) sG = .next t ∧ t.status = 0x8) ∧
    (∃ t, exec (.bvSet 1 0) sG = .next t ∧ t.status = 0x9) ∧ (mkFaulted 0x8 memG).faulted = true ∧
    (∀ rest, (mkFaulted 0x8 memG).host ≠ .reset :: rest) ∧ ∃ t, step (mkFaulted 0x8 memG) = .next t :=
  ⟨⟨_, rfl, rfl⟩, ⟨_, rfl, rfl⟩, rfl, fun _ h => (by cases h), _, rfl⟩

/-- A step that sets FAULTED, one that keeps it, and a refused command. -/
theorem witness_FaultCodeHoldsTheFatalCode :
    (sRun [.command cBad]).faulted = false ∧ (∃ t, step (sRun [.command cBad]) = .next t ∧ t.faulted = true) ∧
    (∃ t, step (sRun [.command cInc]) = .next t ∧ t.faulted = false) ∧
    ∃ t, step { mkFaulted 0x8 memG with host := [.command cInc] } = .next t ∧ t.faulted = true :=
  ⟨rfl, ⟨_, rfl, rfl⟩, ⟨_, rfl, rfl⟩, _, rfl, rfl⟩

/-- A run of three steps: a refused command, its response taken, a refused command. -/
theorem witness_FirstFatalCodeKeptOverRuns :
    (mkFaulted 0x8 memG).faulted = true ∧
    (∀ a ∈ [HostAction.command cInc, .takeResponse, .command cBad].take 3, a ≠ .reset) ∧
    ∃ t, steps 3 { mkFaulted 0x8 memG with host := [.command cInc, .takeResponse, .command cBad] } = .next t ∧
      t.result = 0x8 :=
  ⟨rfl, by decide, _, rfl, rfl⟩

/-- Every error of the block, each on a state that is not faulted. -/
theorem witness_ErrorEffects : sC.faulted = false ∧ sG.faulted = false ∧
    (∃ t, exec (.bvOr 0 2) sC = .next t ∧ t.status = 0x1) ∧ (∃ t, exec (.cvNew 3 9) sG = .next t ∧ t.status = 0x2) ∧
    (∃ t, exec (.alignUp 0xFFFFFFFFFFFFFFC1) sG = .next t ∧ t.status = 0x3) ∧
    (∃ t, exec (.rdWord 0 1) sG = .next t ∧ t.status = 0x8) ∧ ∃ t, exec (.bvIsempty 3) sG = .next t ∧ t.status = 0x9 :=
  ⟨rfl, rfl, ⟨_, rfl, rfl⟩, ⟨_, rfl, rfl⟩, ⟨_, rfl, rfl⟩, ⟨_, rfl, rfl⟩, _, rfl, rfl⟩

theorem witness_OnlyListedStatusCodes : (∃ t, exec (.bvNew 0 8) sG = .next t ∧ t.status = 0x0) ∧
    (∃ t, exec (.bvNew 0 9) sG = .next t ∧ t.status ≠ 0x0 ∧ t.status ≠ 0xF) ∧
    ∃ t, exec (.bvNew 0 8) (mkFaulted 0x9 memG) = .next t ∧ t.status = 0xF :=
  ⟨⟨_, rfl, rfl⟩, ⟨_, rfl, by decide, by decide⟩, _, rfl, rfl⟩

/-- The last index in range and the first beyond it, for a bit, a counter and a word. -/
theorem witness_OutOfRangeExactlyWhen : sG.faulted = false ∧
    (∃ t, exec (.bvGet 0 63) sG = .next t ∧ t.status = 0x0) ∧ (∃ t, exec (.bvGet 0 64) sG = .next t ∧ t.status = 0x8) ∧
    (∃ t, exec (.cvInc 1 15) sG = .next t ∧ t.status = 0x0) ∧ (∃ t, exec (.cvInc 1 16) sG = .next t ∧ t.status = 0x8) ∧
    (∃ t, exec (.rdWord 2 1) sG = .next t ∧ t.status = 0x0) ∧ ∃ t, exec (.rdWord 2 2) sG = .next t ∧ t.status = 0x8 :=
  ⟨rfl, ⟨_, rfl, rfl⟩, ⟨_, rfl, rfl⟩, ⟨_, rfl, rfl⟩, ⟨_, rfl, rfl⟩, ⟨_, rfl, rfl⟩, _, rfl, rfl⟩

/-- A reserved encoding, the first handle that is too large in VD and in VS, and a wrong kind for each family. -/
theorem witness_IllegalCommandExactlyWhen : sG.faulted = false ∧
    (∃ t, exec (.reserved 0x000F) sG = .next t ∧ t.status = 0x9) ∧ (∃ t, exec (.bvNew 4 0) sG = .next t ∧ t.status = 0x9) ∧
    (∃ t, exec (.bvOr 0 4) sG = .next t ∧ t.status = 0x9) ∧ (∃ t, exec (.bvClear 1) sG = .next t ∧ t.status = 0x9) ∧
    (∃ t, exec (.bvAnd 2 1) sG = .next t ∧ t.status = 0x9) ∧ (∃ t, exec (.cvClear 0) sG = .next t ∧ t.status = 0x9) ∧
    ∃ t, exec (.rdWord 3 0) sG = .next t ∧ t.status = 0x9 :=
  ⟨rfl, ⟨_, rfl, rfl⟩, ⟨_, rfl, rfl⟩, ⟨_, rfl, rfl⟩, ⟨_, rfl, rfl⟩, ⟨_, rfl, rfl⟩, ⟨_, rfl, rfl⟩, _, rfl, rfl⟩

/-- Each recoverable error at the first operand that raises it, beside the last that does not. -/
theorem witness_RecoverableErrorsExactlyWhen : sG.faulted = false ∧
    (∃ t, exec (.bvAnd 2 0) sG = .next t ∧ t.status = 0x1) ∧ (∃ t, exec (.bvAnd 2 2) sG = .next t ∧ t.status = 0x0) ∧
    (∃ t, exec (.cvNew 0 9) sG = .next t ∧ t.status = 0x2) ∧ (∃ t, exec (.cvNew 0 8) sG = .next t ∧ t.status = 0x0) ∧
    (∃ t, exec (.alignUp 0xFFFFFFFFFFFFFFC1) sG = .next t ∧ t.status = 0x3) ∧
    ∃ t, exec (.alignUp 0xFFFFFFFFFFFFFFC0) sG = .next t ∧ t.status = 0x0 :=
  ⟨rfl, ⟨_, rfl, rfl⟩, ⟨_, rfl, rfl⟩, ⟨_, rfl, rfl⟩, ⟨_, rfl, rfl⟩, ⟨_, rfl, rfl⟩, _, rfl, rfl⟩

/-- A performed write with another slot beside it, an error, and a command with no slot of its own. -/
theorem witness_CommandChangesItsOwnSlotOnly : (∃ t, exec (.bvSet 2 127) sG = .next t ∧ t.status ≠ 0x8 ∧ t.status ≠ 0x9) ∧
    (Instr.bvSet 2 127).dest ≠ some 0 ∧ (∃ t, exec (.bvSet 2 128) sG = .next t ∧ t.status ≠ 0x0) ∧
    (Instr.cvGet 1 0).dest = none ∧ ∃ t, exec (.cvGet 1 0) sG = .next t :=
  ⟨⟨_, rfl, by decide, by decide⟩, by decide, ⟨_, rfl, by decide⟩, rfl, _, rfl⟩

/-- Two states that differ in a slot the command does not name. -/
theorem witness_OtherSlotsAreNotRead :
    (mk .w64 [bitSlot [0], ctrSlot [7], bitSlot [9, 9], noSlot]).config = sG.config ∧
    (mk .w64 [bitSlot [0], ctrSlot [7], bitSlot [9, 9], noSlot]).slots ≠ sG.slots ∧
    (∀ h ∈ (Instr.bvGetset 0 5).names,
      (mk .w64 [bitSlot [0], ctrSlot [7], bitSlot [9, 9], noSlot]).slot? h = sG.slot? h) ∧
    (∃ t, exec (.bvGetset 0 5) sG = .next t) ∧
    ∃ t, exec (.bvGetset 0 5) (mk .w64 [bitSlot [0], ctrSlot [7], bitSlot [9, 9], noSlot]) = .next t :=
  ⟨rfl, by decide, by decide, ⟨_, rfl⟩, _, rfl⟩

/-- The first handle that is too large, the first count that is too large, and the largest count. -/
theorem witness_NewRules : sG.faulted = false ∧ sG.numVectors ≤ (4 : Handle).toNat ∧ (3 : Handle).toNat < sG.numVectors ∧
    sG.maxWords < (9 : Arg).toNat ∧ (8 : Arg).toNat ≤ sG.maxWords := by decide

/-- BV_SET, BV_GET, BV_GETSET: the last bit in range, the first beyond, and a slot of the wrong kind. -/
theorem witness_BvSetRule : sG.faulted = false ∧ sG.slot? 2 = some (bitSlot [0, 0]) ∧ (bitSlot [0, 0]).kind = .bit ∧
    (127 : Arg).toNat < (bitSlot [0, 0]).len * sG.width.bits ∧ (bitSlot [0, 0]).len * sG.width.bits ≤ (128 : Arg).toNat ∧
    sG.kind? 1 ≠ some .bit ∧ sG.kind? 4 ≠ some .bit := by decide
theorem witness_BvGetRule : (mk .w32 memG).faulted = false ∧ (mk .w32 memG).slot? 2 = some (bitSlot [0, 0]) ∧
    (63 : Arg).toNat < (bitSlot [0, 0]).len * (mk .w32 memG).width.bits ∧
    (bitSlot [0, 0]).len * (mk .w32 memG).width.bits ≤ (64 : Arg).toNat ∧ (mk .w32 memG).kind? 3 ≠ some .bit := by decide
theorem witness_BvGetsetRule : sC.faulted = false ∧ sC.slot? 1 = some (bitSlot [0x3, 0x80]) ∧
    (71 : Arg).toNat < (bitSlot [0x3, 0x80]).len * sC.width.bits ∧ sC.bit? 1 71 = some true ∧ sC.bit? 1 70 = some false ∧
    (bitSlot []).len * sC.width.bits ≤ (0 : Arg).toNat ∧ sC.slot? 3 = some (bitSlot []) := by decide

/-- Equal and different lengths, VD = VS, and a wrong kind on either side. -/
theorem witness_OrAndRules : sC.faulted = false ∧ sC.slot? 0 = some (bitSlot [0x5, 0x0]) ∧
    sC.slot? 1 = some (bitSlot [0x3, 0x80]) ∧ (bitSlot [0x5, 0x0]).len = (bitSlot [0x3, 0x80]).len ∧
    sC.slot? 2 = some (bitSlot [0]) ∧ (bitSlot [0x5, 0x0]).len ≠ (bitSlot [0]).len ∧ sC.word? 1 1 = some 0x80 ∧
    sC.bit? 1 71 = some true ∧ sG.faulted = false ∧ sG.kind? 1 ≠ some .bit := by decide

theorem witness_ClearRules : sG.faulted = false ∧ sG.slot? 2 = some (bitSlot [0, 0]) ∧ (bitSlot [0, 0]).kind = .bit ∧
    sG.slot? 1 = some (ctrSlot [0]) ∧ (ctrSlot [0]).kind = .ctr ∧ sG.kind? 3 ≠ some .bit ∧ sG.kind? 0 ≠ some .ctr ∧
    0 < (ctrSlot [0]).len := by decide

theorem witness_BvIsemptyRule : sC.faulted = false ∧ sC.slot? 3 = some (bitSlot []) ∧ (bitSlot []).kind = .bit ∧
    sC.slot? 2 = some (bitSlot [0]) ∧ sG.faulted = false ∧ sG.kind? 3 ≠ some .bit := by decide

theorem witness_RdWordRule : sG.Inv ∧ sG.faulted = false ∧ sG.kind? 4 = none ∧ sG.kind? 3 = some .none ∧
    sG.slot? 2 = some (bitSlot [0, 0]) ∧ (bitSlot [0, 0]).kind ≠ .none ∧ (1 : Arg).toNat < (bitSlot [0, 0]).len ∧
    (bitSlot [0, 0]).len ≤ (2 : Arg).toNat := by decide

/-- A state with counters at 15, at 0 and between. -/
def sK : State := mk .w64 [noSlot, ctrSlot [0xF000000000000003, 0]]

/-- The counter at 15, the last counter in range, the first beyond, and a slot of the wrong kind. -/
theorem witness_CvIncRule : sK.faulted = false ∧ sK.slot? 1 = some (ctrSlot [0xF000000000000003, 0]) ∧
    (ctrSlot [0xF000000000000003, 0]).kind = .ctr ∧ sK.counter? 1 0 = some 15 ∧ sK.counter? 1 15 = some 3 ∧
    (31 : Arg).toNat < 2 * (sK.width.bits / 4) ∧ 2 * (sK.width.bits / 4) ≤ (32 : Arg).toNat ∧ sK.kind? 0 ≠ some .ctr := by
  decide
theorem witness_CvDecRule : sK.faulted = false ∧ sK.slot? 1 = some (ctrSlot [0xF000000000000003, 0]) ∧
    sK.counter? 1 1 = some 0 ∧ (1 : Arg).toNat < 2 * (sK.width.bits / 4) ∧ sK.kind? 2 ≠ some .ctr := by decide
theorem witness_CvGetRule : (mk .w32 memG).faulted = false ∧ (mk .w32 memG).slot? 1 = some (ctrSlot [0]) ∧
    (ctrSlot [0]).kind = .ctr ∧ (7 : Arg).toNat < (ctrSlot [0]).len * ((mk .w32 memG).width.bits / 4) ∧
    (ctrSlot [0]).len * ((mk .w32 memG).width.bits / 4) ≤ (8 : Arg).toNat ∧ (mk .w32 memG).kind? 0 ≠ some .ctr := by decide

/-- The three clauses at the values where they meet: 2^64 - W and the one above it. -/
theorem witness_AlignUpRule : sG.faulted = false ∧ sG.width.bits ∣ (0xFFFFFFFFFFFFFFC0 : Arg).toNat ∧
    (¬ sG.width.bits ∣ (0xFFFFFFFFFFFFFFBF : Arg).toNat ∧ (0xFFFFFFFFFFFFFFBF : Arg).toNat ≤ 2 ^ 64 - sG.width.bits) ∧
    (¬ sG.width.bits ∣ (0xFFFFFFFFFFFFFFC1 : Arg).toNat ∧ 2 ^ 64 - sG.width.bits < (0xFFFFFFFFFFFFFFC1 : Arg).toNat) := by
  decide
theorem witness_AlignUpLaws : sG.faulted = false ∧
    ∃ t, exec (.alignUp 0xFFFFFFFFFFFFFFBF) sG = .next t ∧ t.status = 0x0 ∧ t.result = 0xFFFFFFFFFFFFFFC0 :=
  ⟨rfl, _, rfl, rfl, rfl⟩

theorem witness_CounterPackingIdentities : 0 < Width.w32.bits / 4 ∧ 15 < Width.w64.bits / 4 ∧ (14 : Nat) ≠ 15 ∧
    4 < Width.w64.bits ∧ ¬ (4 * (Width.w64.bits / 4 - 1 - 15) ≤ 4 ∧ 4 < 4 * (Width.w64.bits / 4 - 1 - 15) + 4) := by decide
theorem witness_CounterNibblesTileTheWord : 15 < countersPerWord .w64 ∧ 7 < countersPerWord .w32 ∧ 63 < Width.w64.bits ∧
    31 < Width.w32.bits := by decide

theorem witness_SetThenGetLaws : sC.faulted = false ∧ sC.slot? 0 = some (bitSlot [0x5, 0x0]) ∧
    (bitSlot [0x5, 0x0]).kind = .bit ∧ (127 : Arg).toNat < (bitSlot [0x5, 0x0]).len * sC.width.bits ∧
    ((1 : Handle), 127) ≠ (0, (127 : Arg).toNat) := by decide
theorem witness_ClearAndCommuteLaws : sC.faulted = false ∧ sC.kind? 0 = some .bit ∧ sC.kind? 1 = some .bit ∧
    (sC.slot? 0).map Slot.len = (sC.slot? 1).map Slot.len ∧ (∃ t, exec (.bvClear 0) sC = .next t) ∧
    (∃ t, exec (.bvOr 0 1) sC = .next t) ∧ (∃ t, exec (.bvOr 1 0) sC = .next t) ∧
    (∃ t, exec (.bvAnd 0 1) sC = .next t) ∧ ∃ t, exec (.bvAnd 1 0) sC = .next t :=
  ⟨rfl, rfl, rfl, rfl, ⟨_, rfl⟩, ⟨_, rfl⟩, ⟨_, rfl⟩, ⟨_, rfl⟩, _, rfl⟩
/-- Counters at both ends and between. -/
theorem witness_CountersSaturateOverRuns : sK.faulted = false ∧ sK.kind? 1 = some .ctr ∧
    sK.counter? 1 (0 : Arg).toNat = some 15 ∧ sK.counter? 1 (1 : Arg).toNat = some 0 ∧
    sK.counter? 1 (15 : Arg).toNat = some 3 := by decide
theorem witness_IdempotentCommands : (∃ t, exec (.bvSet 0 63) sC = .next t ∧ ∃ u, exec (.bvSet 0 63) t = .next u) ∧
    (∃ t, exec (.bvClear 0) sC = .next t ∧ ∃ u, exec (.bvClear 0) t = .next u) ∧
    (∃ t, exec (.bvOr 0 1) sC = .next t ∧ ∃ u, exec (.bvOr 0 1) t = .next u) ∧
    ∃ t, exec (.cvNew 0 8) sC = .next t ∧ ∃ u, exec (.cvNew 0 8) t = .next u :=
  ⟨⟨_, rfl, _, rfl⟩, ⟨_, rfl, _, rfl⟩, ⟨_, rfl, _, rfl⟩, _, rfl, _, rfl⟩
/-- A pair of slots, one slot with itself, a CTR slot, and an allocation over stale words. -/
theorem witness_WholeVectorCommandsAreWordLoops : sC.faulted = false ∧ sC.slot? 0 = some (bitSlot [0x5, 0x0]) ∧
    sC.slot? 1 = some (bitSlot [0x3, 0x80]) ∧ (bitSlot [0x5, 0x0]).kind = .bit ∧
    (bitSlot [0x5, 0x0]).len = (bitSlot [0x3, 0x80]).len ∧ sG.slot? 1 = some (ctrSlot [0]) ∧ (ctrSlot [0]).kind = .ctr ∧
    (2 : Arg).toNat ≤ sC.maxWords ∧ ([7, 9] : List Word).length = (2 : Arg).toNat := by decide

end Sys2Proof.Tests
end

/-! ## The offered command: one rule per function a step passes it through -/

namespace Sys2Proof.Machine

open Sys2Proof

/-- A block with no response on offer accepts the command and performs it (R39, R55). -/
theorem State.offer_of_not_responding {s : State} (hp : s.port ≠ .responding) (c : Command) (rest : List HostAction) :
    s.offer c rest = exec (decode c) (s.accepted rest) := by
  unfold State.offer
  cases h : s.port with
  | responding => exact absurd h hp
  | ready => rfl
  | inReset => rfl

theorem step_of_command {s : State} {c : Command} {rest : List HostAction} (hh : s.host = .command c :: rest) :
    step s = s.offer c rest := by
  unfold step
  rw [hh]

/-- The bits of a word that `decodeTableWord` reads are the bits `withFetchWord` places. -/
theorem decode_of_decodeTableWord {nbits w : Nat} {i : Instr} (h : decodeTableWord nbits w = some i) :
    decode (Command.ofNat (w % 2 ^ nbits)) = i := by
  unfold decodeTableWord at h
  split at h
  · exact Option.some.inj h
  · cases h

/-- Placing a command and accepting it leaves the host's list as it was. -/
theorem State.accepted_withFetchWord (s : State) (nbits w : Nat) :
    (s.withFetchWord nbits w).accepted s.host = { s with port := .responding } := rfl

/-- Settles O7: the step offers the command, and a block with no response on offer performs it. -/
theorem stepRunsTheOfferedCommand : Obligations.StepRunsTheOfferedCommand := by
  intro s c rest hhost hport
  calc step s = s.offer c rest := step_of_command hhost
    _ = exec (decode c) (s.accepted rest) := State.offer_of_not_responding hport c rest

/-- Settles O8: the placed command is offered to a ready block, so O7's rule applies to it. -/
theorem stepRunsThePlacedWord : Obligations.StepRunsThePlacedWord := by
  intro s nbits w i hdec
  have hready : (s.withFetchWord nbits w).port ≠ .responding := by simp [State.withFetchWord]
  calc step (s.withFetchWord nbits w)
      = exec (decode (Command.ofNat (w % 2 ^ nbits))) ((s.withFetchWord nbits w).accepted s.host) :=
        stepRunsTheOfferedCommand _ _ _ rfl hready
    _ = exec i { s with port := .responding } := by
        rw [decode_of_decodeTableWord hdec, State.accepted_withFetchWord]

end Sys2Proof.Machine

/-! ## The fault state and the frame: what a command's response and a step leave -/

namespace Sys2Proof.Machine

open Sys2Proof

/-- The state after reset holds `NV` slots, none of them allocated (R31). -/
theorem slot?_afterReset {c : Config} {h : Handle} (hlt : h.toNat < c.numVectors) :
    (State.afterReset c).slot? h = some Slot.unallocated := by
  simp [State.slot?, State.afterReset, hlt]

/-- Settles O12: `State.afterReset` states every register, and its slots are `NV` unallocated ones. -/
theorem resetValues : Obligations.ResetValues := fun _ =>
  ⟨List.length_replicate, fun _ hlt => slot?_afterReset hlt, rfl, rfl, rfl, rfl⟩

theorem Error.code_of_fatal {e : Error} (h : e.fatal = true) : e.code = 0x8 ∨ e.code = 0x9 := by
  cases e <;> simp [Error.fatal, Error.code] at h ⊢

theorem Error.code_of_recoverable {e : Error} (h : e.fatal = false) :
    e.code = 0x1 ∨ e.code = 0x2 ∨ e.code = 0x3 := by
  cases e <;> simp [Error.fatal, Error.code] at h ⊢

/-- The four responses of a command: refused, a fatal error, a recoverable error, or performed (R16, R87, R89). -/
theorem exec_response_cases {i : Instr} {s t : State} (h : exec i s = .next t) :
    (s.faulted = true ∧ t = s.faultedResponse) ∨
    (s.faulted = false ∧ ∃ c, (c = 0x8 ∨ c = 0x9) ∧ t = s.fatalResponse c) ∨
    (s.faulted = false ∧ ∃ c, (c = 0x1 ∨ c = 0x2 ∨ c = 0x3) ∧ t = s.recoverableResponse c) ∨
    (s.faulted = false ∧ PerformedOn i s t) := by
  rcases exec_cases h with hrefused | ⟨hf, e, rfl⟩ | hperformed
  · exact .inl hrefused
  · cases hfatal : e.fatal with
    | true => exact .inr (.inl ⟨hf, _, Error.code_of_fatal hfatal, by simp [raise_eq, hfatal]⟩)
    | false => exact .inr (.inr (.inl ⟨hf, _, Error.code_of_recoverable hfatal, by simp [raise_eq, hfatal]⟩))
  · exact .inr (.inr (.inr hperformed))

theorem exec_of_faulted {i : Instr} {s t : State} (hf : s.faulted = true) (h : exec i s = .next t) :
    t = s.faultedResponse := by
  rcases exec_cases h with ⟨-, ht⟩ | ⟨hf', -⟩ | ⟨hf', -⟩
  · exact ht
  · simp [hf] at hf'
  · simp [hf] at hf'

/-- A command sets the fault state, by a fatal error, or leaves it. -/
theorem exec_fault_cases {i : Instr} {s t : State} (h : exec i s = .next t) :
    (s.faulted = false ∧ t.faulted = true ∧ t.faultCode = t.status ∧ (t.status = 0x8 ∨ t.status = 0x9)) ∨
    (t.faulted = s.faulted ∧ t.faultCode = s.faultCode ∧ t.status ≠ 0x8 ∧ t.status ≠ 0x9) := by
  rcases exec_response_cases h with ⟨-, rfl⟩ | ⟨hf, c, hc, rfl⟩ | ⟨-, c, hc, rfl⟩ | ⟨-, m, r, rfl, -⟩
  · exact .inr ⟨rfl, rfl, by simp, by simp⟩
  · exact .inl ⟨hf, rfl, rfl, hc⟩
  · exact .inr ⟨rfl, rfl, by rcases hc with rfl | rfl | rfl <;> simp⟩
  · exact .inr ⟨rfl, rfl, by simp⟩

/-- No command writes the parameters, the port, the list of actions or the draw counter (R18). -/
theorem exec_frame {i : Instr} {s t : State} (h : exec i s = .next t) :
    t.config = s.config ∧ t.port = s.port ∧ t.host = s.host ∧ t.draws = s.draws := by
  rcases exec_response_cases h with ⟨-, rfl⟩ | ⟨-, c, -, rfl⟩ | ⟨-, c, -, rfl⟩ | ⟨-, m, r, rfl, hlen, -⟩
  · exact ⟨rfl, rfl, rfl, rfl⟩
  · exact ⟨rfl, rfl, rfl, rfl⟩
  · exact ⟨rfl, rfl, rfl, rfl⟩
  · exact ⟨by simp [State.config, hlen], rfl, rfl, rfl⟩

/-- A command leaves every slot, or it answers OK and leaves every slot but its own (R18). -/
theorem exec_slots_cases {i : Instr} {s t : State} (h : exec i s = .next t) :
    t.slots = s.slots ∨ (t.status = 0x0 ∧ i.dest ≠ none ∧ ∀ g, i.dest ≠ some g → t.slot? g = s.slot? g) := by
  rcases exec_response_cases h with ⟨-, rfl⟩ | ⟨-, c, -, rfl⟩ | ⟨-, c, -, rfl⟩ | ⟨-, m, r, rfl, -, hother, hnone, -⟩
  · exact .inl rfl
  · exact .inl rfl
  · exact .inl rfl
  · by_cases hd : i.dest = none
    · exact .inl (hnone hd)
    · exact .inr ⟨rfl, hd, hother⟩

/-- Settles O26: the fields no command writes, the slots and the fault state, each by its own case analysis. -/
theorem commandChangesItsOwnSlotOnly : Obligations.CommandChangesItsOwnSlotOnly := by
  intro i s t h
  obtain ⟨hconfig, hport, hhost, hdraws⟩ := exec_frame h
  refine ⟨hconfig, hport, hhost, hdraws, fun g hg => ?_, fun hst => ?_, fun hd => ?_, fun h8 h9 => ?_⟩
  · rcases exec_slots_cases h with hslots | ⟨-, -, hother⟩
    · exact slot?_congr hslots g
    · exact hother g hg
  · exact (exec_slots_cases h).resolve_right fun hown => hst hown.1
  · exact (exec_slots_cases h).resolve_right fun hown => hown.2.1 hd
  · rcases exec_fault_cases h with ⟨-, -, -, hfatal⟩ | ⟨hfaulted, hcode, -⟩
    · exact absurd hfatal (not_or.mpr ⟨h8, h9⟩)
    · exact ⟨hfaulted, hcode⟩

/-- A step performs no command and leaves slots and fault state, or is a reset, or performs a command from a state with
the slots and the fault state of this one. -/
theorem step_kinds {s t : State} (h : step s = .next t) :
    ((s.host = [] ∨ ∃ rest, s.host = .takeResponse :: rest) ∧
      t.slots = s.slots ∧ t.faulted = s.faulted ∧ t.faultCode = s.faultCode) ∨
    ((∃ rest, s.host = .reset :: rest) ∧ t.faulted = false ∧ t.faultCode = 0) ∨
    (∃ i u, exec i u = .next t ∧ u.slots = s.slots ∧ u.faulted = s.faulted ∧ u.faultCode = s.faultCode) := by
  rcases step_cases h with ⟨hh, rfl⟩ | ⟨rest, hh, rfl⟩ | ⟨rest, hh, rfl⟩ | ⟨c, rest, -, -, he⟩ |
    ⟨first, later, rest, c, -, -, he⟩
  · exact .inl ⟨.inl hh, by simp⟩
  · exact .inl ⟨.inr ⟨rest, hh⟩, by simp⟩
  · exact .inr (.inl ⟨⟨rest, hh⟩, rfl, rfl⟩)
  · exact .inr (.inr ⟨_, _, he, rfl, rfl, rfl⟩)
  · exact .inr (.inr ⟨_, _, he, rfl, rfl, rfl⟩)

/-- A step that is no reset leaves the fault state and the slots of a faulted block (R23, R24). -/
theorem step_of_faulted {s t : State} (hf : s.faulted = true) (hreset : ∀ rest, s.host ≠ .reset :: rest)
    (h : step s = .next t) : t.faulted = true ∧ t.faultCode = s.faultCode ∧ t.slots = s.slots := by
  rcases step_kinds h with ⟨-, hslots, hfaulted, hcode⟩ | ⟨⟨rest, hh⟩, -⟩ | ⟨i, u, he, hslots, hfaulted, hcode⟩
  · exact ⟨hfaulted.trans hf, hcode, hslots⟩
  · exact absurd hh (hreset rest)
  · have hu : u.faulted = true := hfaulted.trans hf
    rw [exec_of_faulted hu he]
    exact ⟨hu, hcode, hslots⟩

/-- Settles O18: a fatal status is that of the case that sets FAULTED, and a faulted block refuses every command. -/
theorem faultIsStickyUntilReset : Obligations.FaultIsStickyUntilReset := by
  refine ⟨fun i s t h hst => ?_, fun s t hf hreset h => step_of_faulted hf hreset h⟩
  rcases exec_fault_cases h with ⟨-, hfaulted, -⟩ | ⟨-, -, h8, h9⟩
  · exact hfaulted
  · exact absurd hst (not_or.mpr ⟨h8, h9⟩)

/-- A step leaves the fault state, clears it by a reset, or sets it to the code of a fatal error (R23, R24). -/
theorem step_fault_cases {s t : State} (h : step s = .next t) :
    (t.faulted = s.faulted ∧ t.faultCode = s.faultCode) ∨ (t.faulted = false ∧ t.faultCode = 0) ∨
    (s.faulted = false ∧ t.faulted = true ∧ t.faultCode = t.status ∧ (t.status = 0x8 ∨ t.status = 0x9)) := by
  rcases step_kinds h with ⟨-, -, hkept⟩ | ⟨-, hreset⟩ | ⟨i, u, he, -, hfaulted, hcode⟩
  · exact .inl hkept
  · exact .inr (.inl hreset)
  · rcases exec_fault_cases he with ⟨hu, hset⟩ | ⟨hf, hc, -⟩
    · exact .inr (.inr ⟨hfaulted ▸ hu, hset⟩)
    · exact .inl ⟨hf.trans hfaulted, hc.trans hcode⟩

/-- A command refused in the fault state reports FAULT_CODE in RESULT (R87). -/
theorem step_result_of_refused {s t : State} {rest : List HostAction} (hf : s.faulted = true)
    (hh : (∃ c, s.host = .command c :: rest) ∨ ∃ c later, s.host = .commandChanged c later :: rest)
    (h : step s = .next t) : t.result.toNat = s.faultCode.toNat := by
  rcases step_kinds h with ⟨hnone, -⟩ | ⟨hreset, -⟩ | ⟨i, u, he, -, hfaulted, hcode⟩
  · rcases hh with ⟨c, hh⟩ | ⟨c, later, hh⟩ <;> simp [hh] at hnone
  · rcases hh with ⟨c, hh⟩ | ⟨c, later, hh⟩ <;> simp [hh] at hreset
  · rw [exec_of_faulted (hfaulted.trans hf) he, State.faultedResponse_result, hcode]
    exact BitVec.toNat_setWidth_of_le (by decide)

/-- Settles O19: the first three clauses go through the three things a step can do to the fault state. -/
theorem faultCodeHoldsTheFatalCode : Obligations.FaultCodeHoldsTheFatalCode := by
  intro s t h
  refine ⟨fun hs ht => ?_, fun hs ht => ?_, fun hs ht => ?_, rfl, fun rest hh hf => step_result_of_refused hf hh h⟩
  · rcases step_fault_cases h with ⟨hfaulted, hcode⟩ | ⟨-, hcode⟩ | ⟨-, hset, -⟩
    · exact hcode.trans (hs (hfaulted ▸ ht))
    · exact hcode
    · simp [ht] at hset
  · rcases step_fault_cases h with ⟨hfaulted, -⟩ | ⟨hcleared, -⟩ | ⟨-, -, hcode, hfatal⟩
    · simp [hs, ht] at hfaulted
    · simp [ht] at hcleared
    · exact ⟨hcode, hcode ▸ hfatal⟩
  · rcases step_fault_cases h with ⟨-, hcode⟩ | ⟨hcleared, -⟩ | ⟨hclear, -⟩
    · exact hcode
    · simp [ht] at hcleared
    · simp [hs] at hclear

end Sys2Proof.Machine

/-! ## The header's fields: how the decoder reads them, and which of them a command's outcome depends on -/

namespace Sys2Proof

open Machine

/-- `OP` is the header's low hexadecimal digit (R50). -/
theorem Hdr.op_toNat (hdr : Hdr) : hdr.op.toNat = hdr.toNat % 16 := by
  simp [Hdr.op]

theorem Hdr.rsv_toNat (hdr : Hdr) : hdr.rsv.toNat = hdr.toNat / 2 ^ 12 := by
  have hlt := hdr.isLt
  simp [Hdr.rsv, Nat.shiftRight_eq_div_pow]
  omega

theorem Hdr.rsv_eq_zero_iff (hdr : Hdr) : hdr.rsv = 0 ↔ hdr.toNat / 2 ^ 12 = 0 := by
  simp [← BitVec.toNat_inj, hdr.rsv_toNat]

/-- The opcode map names every opcode but 0xF (R51). -/
theorem decodeOp_eq_reserved_iff (hdr h : Hdr) (x : Arg) :
    decodeOp hdr x = .reserved h ↔ h = hdr ∧ hdr.op.toNat = 15 := by
  have hlt := hdr.op.isLt
  unfold decodeOp
  split
  case h_16 =>
    have hop : hdr.op.toNat = 15 := by simp only [imp_false] at *; omega
    simp [hop, eq_comm]
  all_goals simp [*]

/-- A header is reserved by its RSV field or by its OP field (R56). -/
theorem decode_eq_reserved_iff (c : Command) (h : Hdr) :
    decode c = .reserved h ↔ h = c.hdr ∧ (c.hdr.toNat / 2 ^ 12 ≠ 0 ∨ c.hdr.toNat % 16 = 15) := by
  unfold decode
  split
  case isTrue hrsv =>
    have hzero : c.hdr.toNat / 2 ^ 12 = 0 := c.hdr.rsv_eq_zero_iff.mp hrsv
    rw [decodeOp_eq_reserved_iff, Hdr.op_toNat, or_iff_right (not_not.mpr hzero)]
  case isFalse hrsv =>
    have hne : c.hdr.toNat / 2 ^ 12 ≠ 0 := mt c.hdr.rsv_eq_zero_iff.mpr hrsv
    rw [Instr.reserved.injEq, eq_comm, and_iff_left (.inl hne)]

/-- The block records nothing of a reserved header (R89). -/
theorem exec_reserved (hdr : Hdr) (s : State) : exec (.reserved hdr) s = s.perform (.error .illegalCommand) := rfl

theorem exec_reserved_of_not_faulted (hdr : Hdr) {s : State} (hf : s.faulted = false) :
    exec (.reserved hdr) s = .next (s.fatalResponse 0x9) := by
  simp [exec_reserved, hf, raise_eq, Error.fatal, Error.code]

/-- Settles O3: the reserved headers are those `decode_eq_reserved_iff` names, and they raise IllegalCommand. -/
theorem reservedHeadersAreIllegal : Obligations.ReservedHeadersAreIllegal := by
  intro hdr x
  have hiff : ∀ h, decode ⟨hdr, x⟩ = .reserved h ↔ h = hdr ∧ (hdr.toNat / 2 ^ 12 ≠ 0 ∨ hdr.toNat % 16 = 15) :=
    decode_eq_reserved_iff ⟨hdr, x⟩
  refine ⟨by simp [hiff], fun hrsv hop h hd => ?_, fun hres s hf => ?_⟩
  · exact ((hiff h).mp hd).2.elim (absurd hrsv) hop
  · rw [(hiff hdr).mpr ⟨rfl, hres⟩]
    exact ⟨exec_reserved_of_not_faulted hdr hf, exec_reserved_of_not_faulted hdr hf⟩

/-- The encoder's header as the number R50 gives. -/
theorem mkHdr_eq_ofNat (op : BitVec 4) (vd vs : Handle) :
    mkHdr op vd vs = BitVec.ofNat 16 (256 * vs.toNat + 16 * vd.toNat + op.toNat) := by
  have hop := op.isLt
  have hvd := vd.isLt
  have hvs := vs.isLt
  have hlow : vd.toNat <<< 4 ||| op.toNat = vd.toNat <<< 4 + op.toNat := (Nat.shiftLeft_add_eq_or_of_lt hop _).symm
  have hall : vs.toNat <<< 8 ||| (vd.toNat <<< 4 + op.toNat) = vs.toNat <<< 8 + (vd.toNat <<< 4 + op.toNat) :=
    (Nat.shiftLeft_add_eq_or_of_lt (by omega) _).symm
  apply BitVec.eq_of_toNat_eq
  calc (mkHdr op vd vs).toNat
      = vs.toNat <<< 8 ||| vd.toNat <<< 4 ||| op.toNat := by
        simp only [mkHdr, BitVec.toNat_or, BitVec.toNat_shiftLeft, BitVec.toNat_setWidth]
        congr <;> omega
    _ = 256 * vs.toNat + 16 * vd.toNat + op.toNat := by rw [Nat.lor_assoc, hlow, hall]; omega
    _ = _ := by rw [BitVec.toNat_ofNat, Nat.mod_eq_of_lt (by omega)]

@[simp] theorem mkHdr_op (op : BitVec 4) (vd vs : Handle) : (mkHdr op vd vs).op = op := by
  ext k hk; interval_cases k <;> simp [mkHdr, Hdr.op]

@[simp] theorem mkHdr_vd (op : BitVec 4) (vd vs : Handle) : (mkHdr op vd vs).vd = vd := by
  ext k hk; interval_cases k <;> simp [mkHdr, Hdr.vd]

@[simp] theorem mkHdr_rsv (op : BitVec 4) (vd vs : Handle) : (mkHdr op vd vs).rsv = 0 := by
  ext k hk; interval_cases k <;> simp [mkHdr, Hdr.rsv]

theorem decode_mkHdr (op : BitVec 4) (vd vs : Handle) (x : Arg) :
    decode ⟨mkHdr op vd vs, x⟩ = decodeOp (mkHdr op vd vs) x := by
  simp [decode]

/-- The fields a command uses decide its outcome (R57): VD of every command but ALIGN_UP, VS of BV_OR and BV_AND, and
ARG of every command but those two, BV_CLEAR, BV_ISEMPTY and CV_CLEAR. The opcode 0xF decodes to different `reserved`
terms, which no outcome tells apart. -/
theorem exec_decodeOp_congr {hdr hdr' : Hdr} {x x' : Arg} {op : BitVec 4} (s : State)
    (hop : hdr.op = op) (hop' : hdr'.op = op)
    (hvd : op ≠ 0xD → hdr'.vd = hdr.vd)
    (hvs : op = 0x4 ∨ op = 0x5 → hdr'.vs = hdr.vs)
    (harg : ¬ (op = 0x4 ∨ op = 0x5 ∨ op = 0x6 ∨ op = 0x7 ∨ op = 0xC) → x' = x) :
    exec (decodeOp hdr' x') s = exec (decodeOp hdr x) s := by
  have hnat : ∀ a, op = a ↔ op.toNat = a.toNat := fun _ => BitVec.toNat_inj.symm
  simp only [ne_eq, hnat] at hvd hvs harg
  unfold decodeOp
  rw [hop, hop']
  split
  case h_16 => simp only [exec_reserved]
  all_goals simp_all

/-- Settles O4: each clause changes only fields that `exec_decodeOp_congr` does not ask to agree. -/
theorem ignoredFieldsChangeNothing : Obligations.IgnoredFieldsChangeNothing := by
  intro op vd vs vd' vs' x x' s
  simp only [← mkHdr_eq_ofNat, decode_mkHdr]
  refine ⟨fun h4 h5 => ?_, fun hD => ?_, fun hop => ?_⟩
  · exact exec_decodeOp_congr s (mkHdr_op ..) (mkHdr_op ..) (by simp) (fun hor => (hor.elim h4 h5).elim) (fun _ => rfl)
  · exact exec_decodeOp_congr s (mkHdr_op ..) (mkHdr_op ..) (by simp [hD]) (by simp [hD]) (fun _ => rfl)
  · exact exec_decodeOp_congr s (mkHdr_op ..) (mkHdr_op ..) (fun _ => rfl) (fun _ => rfl) (absurd hop)

end Sys2Proof

/-! ## The bit-vector commands, `RD_WORD` and the whole-slot commands they share a rule with -/

namespace Sys2Proof.Machine

open Sys2Proof

/-! The responses of the errors (R52, R89) and of a performed command (R16) -/

@[simp] theorem raise_illegalCommand (s : State) : s.raise .illegalCommand = s.fatalResponse 0x9 := rfl

@[simp] theorem raise_outOfRange (s : State) : s.raise .outOfRange = s.fatalResponse 0x8 := rfl

@[simp] theorem raise_incompatibleSize (s : State) : s.raise .incompatibleSize = s.recoverableResponse 0x1 := rfl

@[simp] theorem raise_capacityExceeded (s : State) : s.raise .capacityExceeded = s.recoverableResponse 0x2 := rfl

@[simp] theorem respond_statusOk (s : State) (r : BitVec 64) : s.respond statusOk r = s.okResponse r := rfl

/-! The meanings of the commands, each as one performed body -/

theorem exec_bvNew (vd : Handle) (n : Arg) (s : State) : exec (.bvNew vd n) s = s.perform (s.allocate .bit vd n) := rfl

theorem exec_cvNew (vd : Handle) (n : Arg) (s : State) : exec (.cvNew vd n) s = s.perform (s.allocate .ctr vd n) := rfl

theorem exec_bvSet (vd : Handle) (x : Arg) (s : State) :
    exec (.bvSet vd x) s = s.perform (s.bitOperand vd x >>= fun p => .ok ((s.setBit vd p).respond statusOk 0)) := rfl

theorem exec_bvGet (vd : Handle) (x : Arg) (s : State) :
    exec (.bvGet vd x) s = s.perform (s.bitOperand vd x >>= fun p => .ok (s.respond statusOk (s.readBit vd p))) := rfl

theorem exec_bvGetset (vd : Handle) (x : Arg) (s : State) :
    exec (.bvGetset vd x) s =
      s.perform (s.bitOperand vd x >>= fun p => .ok ((s.setBit vd p).respond statusOk (s.readBit vd p))) := rfl

theorem exec_bvOr (vd vs : Handle) (s : State) :
    exec (.bvOr vd vs) s = s.perform (s.combine (fun x y => x ||| y) vd vs) := rfl

theorem exec_bvAnd (vd vs : Handle) (s : State) :
    exec (.bvAnd vd vs) s = s.perform (s.combine (fun x y => x &&& y) vd vs) := rfl

theorem exec_bvClear (vd : Handle) (s : State) : exec (.bvClear vd) s = s.perform (s.clearSlot .bit vd) := rfl

theorem exec_cvClear (vd : Handle) (s : State) : exec (.cvClear vd) s = s.perform (s.clearSlot .ctr vd) := rfl

theorem exec_bvIsempty (vd : Handle) (s : State) :
    exec (.bvIsempty vd) s =
      s.perform (s.slotOfKind .bit vd >>= fun v => .ok (s.respond statusOk (if v.len = 0 then 1 else 0))) := rfl

theorem exec_rdWord (vd : Handle) (x : Arg) (s : State) :
    exec (.rdWord vd x) s =
      s.perform (s.wordOperand vd x >>= fun j => .ok (s.respond statusOk (s.memRead vd j))) := rfl

/-! The operands, each outcome from its own condition (R82 to R85, R90) -/

section Operands

variable {s : State} {h : Handle} {v : Slot} {x : Arg}

theorem kind?_of_slot (hv : s.slot? h = some v) : s.kind? h = some v.kind := by
  simp [State.kind?, hv]

theorem bitOperand_of_lt (hv : s.slot? h = some v) (hk : v.kind = .bit) (hx : x.toNat < v.len * s.width.bits) :
    s.bitOperand h x = .ok (bitPlace s.width x.toNat) := by
  simp [State.bitOperand, slotOfKind_of_kind hv hk, check_of hx]

theorem bitOperand_of_wrong (hk : s.kind? h ≠ some .bit) : s.bitOperand h x = .error .illegalCommand := by
  simp [State.bitOperand, slotOfKind_of_wrong hk]

theorem bitOperand_of_le (hv : s.slot? h = some v) (hk : v.kind = .bit) (hx : v.len * s.width.bits ≤ x.toNat) :
    s.bitOperand h x = .error .outOfRange := by
  simp [State.bitOperand, slotOfKind_of_kind hv hk, check_of_not (Nat.not_lt.mpr hx)]

theorem wordOperand_of_lt (hv : s.slot? h = some v) (hk : v.kind ≠ .none) (hx : x.toNat < v.len) :
    s.wordOperand h x = .ok x.toNat := by
  simp [State.wordOperand, slotAt_of_some hv, check_of hk, check_of hx]

theorem wordOperand_of_unallocated (hk : s.kind? h = none ∨ s.kind? h = some .none) :
    s.wordOperand h x = .error .illegalCommand := by
  rcases wordOperand_eq s h x with ⟨v, hv, hne, -⟩ | ⟨-, ho⟩ | ⟨v, hv, hne, -⟩
  · simp [kind?_of_slot hv, hne] at hk
  · exact ho
  · simp [kind?_of_slot hv, hne] at hk

theorem wordOperand_of_le (hv : s.slot? h = some v) (hk : v.kind ≠ .none) (hx : v.len ≤ x.toNat) :
    s.wordOperand h x = .error .outOfRange := by
  simp [State.wordOperand, slotAt_of_some hv, check_of hk, check_of_not (Nat.not_lt.mpr hx)]

theorem newOperand_of_le (hh : h.toNat < s.numVectors) (hx : x.toNat ≤ s.maxWords) :
    s.newOperand h x = .ok x.toNat := by
  obtain ⟨v, hv⟩ := (slot?_some_iff s h).mpr hh
  simp [State.newOperand, slotAt_of_some hv, check_of hx]

theorem newOperand_of_no_slot (hh : s.numVectors ≤ h.toNat) : s.newOperand h x = .error .illegalCommand := by
  simp [State.newOperand, slotAt_of_none ((slot?_none_iff s h).mpr hh)]

theorem newOperand_of_lt (hh : h.toNat < s.numVectors) (hx : s.maxWords < x.toNat) :
    s.newOperand h x = .error .capacityExceeded := by
  obtain ⟨v, hv⟩ := (slot?_some_iff s h).mpr hh
  simp [State.newOperand, slotAt_of_some hv, check_of_not (Nat.not_le.mpr hx)]

end Operands

section PairOperands

variable {s : State} {vd vs : Handle} {v u : Slot}

theorem pairOperand_of_wrong (hk : s.kind? vd ≠ some .bit ∨ s.kind? vs ≠ some .bit) :
    s.pairOperand vd vs = .error .illegalCommand := by
  rcases pairOperand_eq s vd vs with ⟨v, u, hv, hu, hvk, huk, -⟩ | ⟨-, ho⟩ | ⟨v, u, hv, hu, hvk, huk, -⟩
  · simp [kind?_of_slot hv, kind?_of_slot hu, hvk, huk] at hk
  · exact ho
  · simp [kind?_of_slot hv, kind?_of_slot hu, hvk, huk] at hk

theorem pairOperand_of_len_eq (hv : s.slot? vd = some v) (hu : s.slot? vs = some u) (hvk : v.kind = .bit)
    (huk : u.kind = .bit) (hl : v.len = u.len) : s.pairOperand vd vs = .ok (v, u) := by
  simp [State.pairOperand, slotAt_of_some hv, slotAt_of_some hu, check_of hvk, check_of huk, check_of hl]

theorem pairOperand_of_len_ne (hv : s.slot? vd = some v) (hu : s.slot? vs = some u) (hvk : v.kind = .bit)
    (huk : u.kind = .bit) (hl : v.len ≠ u.len) : s.pairOperand vd vs = .error .incompatibleSize := by
  simp [State.pairOperand, slotAt_of_some hv, slotAt_of_some hu, check_of hvk, check_of huk, check_of_not hl]

end PairOperands

/-! Allocation (R62, R74) -/

theorem completed_setSlot (s : State) (h : Handle) (v : Slot) (r : BitVec 64) :
    Completed h r s ((s.setSlot h v).respond statusOk r) :=
  ⟨sameButSlot_setSlot s h v r, rfl, rfl⟩

theorem getElem?_words_zeroed {k : Kind} {n j : Nat} (hj : j < n) : (Slot.zeroed k n).words[j]? = some 0 := by
  simp [Slot.zeroed, hj]

theorem newRuleFor_of_allocate {mk : Handle → Arg → Instr} {k : Kind}
    (hexec : ∀ vd n s, exec (mk vd n) s = s.perform (s.allocate k vd n)) : NewRuleFor mk k := by
  intro s vd n hf
  simp only [hexec, State.allocate]
  refine ⟨fun hh => ?_, fun hh hn => ?_, fun hh hn => ?_⟩
  · simp [newOperand_of_no_slot hh, hf]
  · simp [newOperand_of_lt hh hn, hf]
  · rw [newOperand_of_le hh hn, ok_bind, perform_ok hf]
    exact ⟨_, rfl, completed_setSlot .., _, slot?_setSlot_same _ hh, rfl, List.length_replicate,
      fun j hj => getElem?_words_zeroed hj⟩

/-- Settles O28: both commands are `State.allocate`, for the two kinds. -/
theorem newRules : Obligations.NewRules :=
  ⟨newRuleFor_of_allocate exec_bvNew, newRuleFor_of_allocate exec_cvNew⟩

/-! The single-bit commands (R63, R64, R65) -/

/-- The errors of a single-bit command, whatever it does at the place its operand names. -/
theorem indexErrors_of_bitOperand {mk : Handle → Arg → Instr} (body : Handle → State → Place → Except Error State)
    (hexec : ∀ vd x s, exec (mk vd x) s = s.perform (s.bitOperand vd x >>= body vd s)) :
    IndexErrors mk .bit Width.bits := by
  intro s vd x hf
  simp only [hexec]
  refine ⟨fun hk => ?_, fun v hv hk hx => ?_⟩
  · simp [bitOperand_of_wrong hk, hf]
  · simp [bitOperand_of_le hv hk hx, hf]

/-- The flag the machine's shift reads is the flag the view shows. -/
theorem readBit_bitPlace {s : State} {h : Handle} {i : Nat} {b : Bool} (hb : s.bit? h i = some b) :
    s.readBit h (bitPlace s.width i) = if b then 1 else 0 := by
  obtain ⟨w, hw, rfl⟩ := Option.map_eq_some_iff.mp hb
  simp [State.readBit, memRead_of_word hw, bitAt_eq]

theorem completed_setBit (s : State) (h : Handle) (p : Place) (r : BitVec 64) :
    Completed h r s ((s.setBit h p).respond statusOk r) :=
  ⟨sameButSlot_memWrite s h _ _ r, rfl, rfl⟩

theorem word?_setBit_other (s : State) {h : Handle} {i j : Nat} (hj : j ≠ i / s.width.bits) :
    (s.setBit h (bitPlace s.width i)).word? h j = s.word? h j := by
  rw [State.setBit, word?_memWrite, if_neg (by simp [hj])]

theorem bitSetIn_setBit {s : State} {h : Handle} {i : Nat} {b : Bool} (hb : s.bit? h i = some b) (r : BitVec 64) :
    BitSetIn h i s ((s.setBit h (bitPlace s.width i)).respond statusOk r) := by
  refine ⟨kind?_memWrite .., len_memWrite .., ?_, fun k hk => ?_, fun j hj => word?_setBit_other s hj, fun hset => ?_⟩
  · simp [bit?_setBit, hb]
  · simp [bit?_setBit, hk]
  · rw [slot?_respond, setBit_self hset]

/-- Settles O29: an index in range reaches `State.setBit`. -/
theorem bvSetRule : Obligations.BvSetRule := by
  refine ⟨indexErrors_of_bitOperand _ exec_bvSet, fun s vd x v hf hv hk hx => ?_⟩
  obtain ⟨w, -, hb⟩ := bit?_isSome_of_lt hv hx
  rw [exec_bvSet, bitOperand_of_lt hv hk hx, ok_bind, perform_ok hf]
  exact ⟨_, rfl, completed_setBit .., bitSetIn_setBit hb 0⟩

/-- Settles O30: an index in range reaches `State.readBit`. -/
theorem bvGetRule : Obligations.BvGetRule := by
  refine ⟨indexErrors_of_bitOperand _ exec_bvGet, fun s vd x v hf hv hk hx => ?_⟩
  obtain ⟨w, -, hb⟩ := bit?_isSome_of_lt hv hx
  refine ⟨_, hb, ?_⟩
  rw [exec_bvGet, bitOperand_of_lt hv hk hx, ok_bind, perform_ok hf, readBit_bitPlace hb, respond_statusOk]

/-- Settles O31: the slots of O29, with the flag O30 reads from the state before. -/
theorem bvGetsetRule : Obligations.BvGetsetRule := by
  refine ⟨indexErrors_of_bitOperand _ exec_bvGetset, fun s vd x v hf hv hk hx => ?_⟩
  obtain ⟨w, -, hb⟩ := bit?_isSome_of_lt hv hx
  rw [exec_bvGetset, bitOperand_of_lt hv hk hx, ok_bind, perform_ok hf, readBit_bitPlace hb]
  exact ⟨_, _, hb, rfl, completed_setBit .., bitSetIn_setBit hb _⟩

/-! Whole-slot writes (R66, R67, R68, R78) -/

theorem completed_setWords (s : State) (h : Handle) (ws : List Word) (r : BitVec 64) :
    Completed h r s ((s.setWords h ws).respond statusOk r) :=
  ⟨sameButSlot_setWords s h ws r, rfl, rfl⟩

section WholeSlot

variable {s : State} {h : Handle} {v : Slot}

theorem slot?_setWords_same (hv : s.slot? h = some v) (ws : List Word) :
    (s.setWords h ws).slot? h = some { v with words := ws } := by
  simp [slot?_setWords, hv]

theorem kind?_setWords_same (hv : s.slot? h = some v) (ws : List Word) : (s.setWords h ws).kind? h = some v.kind := by
  rw [kind?_of_slot (slot?_setWords_same hv ws)]

theorem len_setWords_same (hv : s.slot? h = some v) {ws : List Word} (hl : ws.length = v.len) :
    ((s.setWords h ws).slot? h).map Slot.len = some v.len := by
  rw [slot?_setWords_same hv, Option.map_some, Slot.len_mk, hl]

end WholeSlot

theorem clearRuleFor_of_clearSlot {mk : Handle → Instr} {k : Kind}
    (hexec : ∀ vd s, exec (mk vd) s = s.perform (s.clearSlot k vd)) : ClearRuleFor mk k := by
  intro s vd hf
  simp only [hexec, State.clearSlot]
  refine ⟨fun hk => by simp [slotOfKind_of_wrong hk, hf], fun v hv hk => ?_⟩
  rw [slotOfKind_of_kind hv hk, ok_bind, perform_ok hf]
  refine ⟨_, rfl, completed_setWords .., hk ▸ kind?_setWords_same hv _, len_setWords_same hv List.length_replicate,
    fun j hj => ?_⟩
  rw [word?_respond, word?_of_slot (slot?_setWords_same hv _), List.getElem?_replicate_of_lt hj]

/-- Settles O33: both commands are `State.clearSlot`, for the two kinds. -/
theorem clearRules : Obligations.ClearRules :=
  ⟨clearRuleFor_of_clearSlot exec_bvClear, clearRuleFor_of_clearSlot exec_cvClear⟩

/-- A word of the destination is the combination of the two words before. -/
theorem word?_setWords_zipWith {s : State} {vd vs : Handle} {v u : Slot} (f : Word → Word → Word)
    (hv : s.slot? vd = some v) (hu : s.slot? vs = some u) {j : Nat} {x y : Word}
    (hx : s.word? vd j = some x) (hy : s.word? vs j = some y) :
    (s.setWords vd (List.zipWith f v.words u.words)).word? vd j = some (f x y) := by
  rw [word?_of_slot hv] at hx
  rw [word?_of_slot hu] at hy
  rw [word?_of_slot (slot?_setWords_same hv _)]
  simp [List.getElem?_zipWith, hx, hy]

/-- A flag of the destination is the combination of the two flags before, where `f` combines words bit by bit. -/
theorem bit?_setWords_zipWith {s : State} {vd vs : Handle} {v u : Slot} {f : Word → Word → Word}
    {g : Bool → Bool → Bool} (hfg : ∀ x y k, (f x y).getLsbD k = g (x.getLsbD k) (y.getLsbD k))
    (hv : s.slot? vd = some v) (hu : s.slot? vs = some u) {i : Nat} {a b : Bool}
    (ha : s.bit? vd i = some a) (hb : s.bit? vs i = some b) :
    (s.setWords vd (List.zipWith f v.words u.words)).bit? vd i = some (g a b) := by
  obtain ⟨x, hx, rfl⟩ := Option.map_eq_some_iff.mp ha
  obtain ⟨y, hy, rfl⟩ := Option.map_eq_some_iff.mp hb
  simp [State.bit?, word?_setWords_zipWith f hv hu hx hy, hfg]

theorem zipWith_self_of_idempotent {f : Word → Word → Word} (hself : ∀ x, f x x = x) (ws : List Word) :
    List.zipWith f ws ws = ws := by
  simp [List.zipWith_self, hself]

theorem combineRuleFor_of_combine {mk : Handle → Handle → Instr} {f : Word → Word → Word} {g : Bool → Bool → Bool}
    (hexec : ∀ vd vs s, exec (mk vd vs) s = s.perform (s.combine f vd vs))
    (hfg : ∀ x y k, (f x y).getLsbD k = g (x.getLsbD k) (y.getLsbD k)) (hself : ∀ x, f x x = x) :
    CombineRuleFor mk f g := by
  intro s vd vs hf
  simp only [hexec, State.combine]
  refine ⟨fun hk => by simp [pairOperand_of_wrong hk, hf], fun v u hv hu hvk huk => ⟨fun hl => ?_, fun hl => ?_⟩⟩
  · simp [pairOperand_of_len_ne hv hu hvk huk hl, hf]
  · rw [pairOperand_of_len_eq hv hu hvk huk hl, ok_bind, perform_ok hf]
    have hlen : (List.zipWith f v.words u.words).length = v.len := by simpa using hl.le
    refine ⟨_, rfl, completed_setWords .., hvk ▸ kind?_setWords_same hv _, len_setWords_same hv hlen,
      fun j x y => word?_setWords_zipWith f hv hu, fun i a b => bit?_setWords_zipWith hfg hv hu, fun heq => ?_⟩
    subst heq
    obtain rfl : v = u := Option.some.inj (hv.symm.trans hu)
    rw [slot?_respond, slot?_setWords_same hv, zipWith_self_of_idempotent hself, hv]

/-- Settles O32: both commands are `State.combine`, and OR and AND act on each bit and keep a word combined with itself. -/
theorem orAndRules : Obligations.OrAndRules :=
  ⟨combineRuleFor_of_combine exec_bvOr (fun _ _ _ => BitVec.getLsbD_or) (fun _ => BitVec.or_self),
    combineRuleFor_of_combine exec_bvAnd (fun _ _ _ => BitVec.getLsbD_and) (fun _ => BitVec.and_self)⟩

/-! The commands that read a slot (R69, R70) -/

/-- Settles O34: the slot of kind BIT is the only operand, and its length the only thing read. -/
theorem bvIsemptyRule : Obligations.BvIsemptyRule := by
  intro s vd hf
  simp only [exec_bvIsempty]
  refine ⟨fun hk => ?_, fun v hv hk => ?_⟩
  · simp [slotOfKind_of_wrong hk, hf]
  · simp [slotOfKind_of_kind hv hk, hf]

/-- Settles O35: an index in range reads the word the view shows, which the memory's form bounds. -/
theorem rdWordRule : Obligations.RdWordRule := by
  intro s vd x hf
  simp only [exec_rdWord]
  refine ⟨fun hk => by simp [wordOperand_of_unallocated hk, hf], fun v hv hk => ⟨fun hx => ?_, fun hx => ?_⟩⟩
  · simp [wordOperand_of_le hv hk hx, hf]
  · obtain ⟨w, hw⟩ := word?_isSome_of_lt hv hx
    have hread := memRead_of_word hw
    refine ⟨w, hw, by simp [wordOperand_of_lt hv hk hx, hf, hread], fun ⟨_, hmem, _⟩ => ?_⟩
    exact hread ▸ memRead_lt hmem vd x.toNat

end Sys2Proof.Machine

/-! ## The single-counter commands (R75, R76, R77) -/

namespace Sys2Proof.Machine

open Sys2Proof

/-! The operand, each outcome from its own condition (R82, R83, R90) -/

section CounterOperand

variable {s : State} {h : Handle} {v : Slot} {x : Arg}

theorem counterOperand_of_lt (hv : s.slot? h = some v) (hk : v.kind = .ctr) (hx : x.toNat < v.len * s.width.counters) :
    s.counterOperand h x = .ok (counterPlace s.width x.toNat) := by
  simp [State.counterOperand, slotOfKind_of_kind hv hk, check_of hx]

theorem counterOperand_of_wrong (hk : s.kind? h ≠ some .ctr) : s.counterOperand h x = .error .illegalCommand := by
  simp [State.counterOperand, slotOfKind_of_wrong hk]

theorem counterOperand_of_le (hv : s.slot? h = some v) (hk : v.kind = .ctr)
    (hx : v.len * s.width.counters ≤ x.toNat) : s.counterOperand h x = .error .outOfRange := by
  simp [State.counterOperand, slotOfKind_of_kind hv hk, check_of_not (Nat.not_lt.mpr hx)]

/-- In range, the view shows the counter that the machine's shift and mask read. -/
theorem counter?_eq_readCounter_of_lt {i : Nat} (hv : s.slot? h = some v) (hi : i < v.len * s.width.counters) :
    s.counter? h i = some (s.readCounter h (counterPlace s.width i)).toNat := by
  obtain ⟨w, hw⟩ := word?_isSome_of_lt hv (div_lt_len (counters_pos _) hi)
  simp [State.readCounter, counter?_of_word hw, memRead_of_word hw]

end CounterOperand

/-- The errors of a single-counter command, whatever it does at the place its operand names. -/
theorem indexErrors_of_counterOperand {mk : Handle → Arg → Instr} (body : Handle → State → Place → Except Error State)
    (hexec : ∀ vd x s, exec (mk vd x) s = s.perform (s.counterOperand vd x >>= body vd s)) :
    IndexErrors mk .ctr Width.counters := by
  intro s vd x hf
  simp only [hexec]
  refine ⟨fun hk => ?_, fun v hv hk hx => ?_⟩
  · simp [counterOperand_of_wrong hk, hf]
  · simp [counterOperand_of_le hv hk hx, hf]

/-! The two commands that change a counter, as one -/

/-- What `CV_INC` and `CV_DEC` share: the counter at `p` becomes `g` of it, unless it is at `stop`; OK either way. -/
def countAt (stop : BitVec 4) (g : BitVec 4 → BitVec 4) (h : Handle) (s : State) (p : Place) : State :=
  (if s.readCounter h p = stop then s else s.writeCounter h p (g (s.readCounter h p))).respond statusOk 0

theorem exec_cvInc (vd : Handle) (x : Arg) (s : State) :
    exec (.cvInc vd x) s = s.perform (s.counterOperand vd x >>= fun p => .ok (countAt 15 (· + 1) vd s p)) := rfl

theorem exec_cvDec (vd : Handle) (x : Arg) (s : State) :
    exec (.cvDec vd x) s = s.perform (s.counterOperand vd x >>= fun p => .ok (countAt 0 (· - 1) vd s p)) := rfl

theorem exec_cvGet (vd : Handle) (x : Arg) (s : State) :
    exec (.cvGet vd x) s =
      s.perform (s.counterOperand vd x >>= fun p => .ok (s.respond statusOk ((s.readCounter vd p).setWidth 64))) := rfl

section CountAt

variable {s : State} {h : Handle} {p : Place} {stop : BitVec 4} {g : BitVec 4 → BitVec 4}

theorem countAt_of_eq (hc : s.readCounter h p = stop) : countAt stop g h s p = s.respond statusOk 0 := by
  rw [countAt, if_pos hc]

theorem countAt_of_ne (hc : s.readCounter h p ≠ stop) :
    countAt stop g h s p = (s.writeCounter h p (g (s.readCounter h p))).respond statusOk 0 := by
  rw [countAt, if_neg hc]

end CountAt

theorem completed_respond (s : State) (h : Handle) (r : BitVec 64) : Completed h r s (s.respond statusOk r) :=
  ⟨sameButSlot_respond s h r, rfl, rfl⟩

theorem completed_writeCounter (s : State) (h : Handle) (p : Place) (c : BitVec 4) (r : BitVec 64) :
    Completed h r s ((s.writeCounter h p c).respond statusOk r) :=
  ⟨sameButSlot_memWrite s h _ _ r, rfl, rfl⟩

theorem word?_writeCounter_other (s : State) {h : Handle} {i j : Nat} (c : BitVec 4) (hj : j ≠ i / s.width.counters) :
    (s.writeCounter h (counterPlace s.width i) c).word? h j = s.word? h j := by
  rw [State.writeCounter, word?_memWrite, if_neg (by simp [hj])]

/-- A command that counts by `g` until `stop` has the rule of `f`, where `f` is `g` on numbers but keeps `stop`, and no
other value. -/
theorem countRuleFor_of_countAt {mk : Handle → Arg → Instr} {stop : BitVec 4} {g : BitVec 4 → BitVec 4} {f : Nat → Nat}
    (hexec : ∀ vd x s, exec (mk vd x) s = s.perform (s.counterOperand vd x >>= fun p => .ok (countAt stop g vd s p)))
    (hstop : f stop.toNat = stop.toNat) (hg : ∀ c, c ≠ stop → (g c).toNat = f c.toNat)
    (hmoves : ∀ c, c ≠ stop → f c.toNat ≠ c.toNat) : CountRuleFor mk f := by
  refine ⟨indexErrors_of_counterOperand _ hexec, fun s vd x v hf hv hk hx => ?_⟩
  have hread := counter?_eq_readCounter_of_lt hv hx
  have hkind : s.kind? vd = some .ctr := hk ▸ kind?_of_slot hv
  have hlen : (s.slot? vd).map Slot.len = some v.len := congrArg (Option.map Slot.len) hv
  rw [hexec, counterOperand_of_lt hv hk hx, ok_bind, perform_ok hf]
  refine ⟨_, _, hread, by omega, rfl, ?_⟩
  by_cases hc : s.readCounter vd (counterPlace s.width x.toNat) = stop
  · rw [countAt_of_eq hc]
    refine ⟨completed_respond .., hkind, hlen, ?_, fun _ _ => rfl, fun _ _ => rfl, fun _ => rfl⟩
    rw [counter?_respond, hread, hc, hstop]
  · rw [countAt_of_ne hc]
    refine ⟨completed_writeCounter .., (kind?_memWrite ..).trans hkind, (len_memWrite ..).trans hlen, ?_,
      fun k hne => ?_, fun j hj => word?_writeCounter_other s _ hj, fun heq => absurd heq (hmoves _ hc)⟩
    · simp [counter?_writeCounter, hread, hg _ hc]
    · simp [counter?_writeCounter, hne]

/-- Settles O36: `CV_INC` counts up to 15, below which 4 bits hold the sum. -/
theorem cvIncRule : Obligations.CvIncRule :=
  countRuleFor_of_countAt exec_cvInc rfl (fun c hc => by bv_omega) (fun c hc => by bv_omega)

/-- Settles O37: `CV_DEC` counts down to 0, above which nothing is truncated. -/
theorem cvDecRule : Obligations.CvDecRule :=
  countRuleFor_of_countAt exec_cvDec rfl (fun c hc => by bv_omega) (fun c hc => by bv_omega)

/-- Settles O38: an index in range reaches `State.readCounter`. -/
theorem cvGetRule : Obligations.CvGetRule := by
  refine ⟨indexErrors_of_counterOperand _ exec_cvGet, fun s vd x v hf hv hk hx => ?_⟩
  refine ⟨_, counter?_eq_readCounter_of_lt hv hx, by omega, ?_⟩
  rw [exec_cvGet, counterOperand_of_lt hv hk hx, ok_bind, perform_ok hf, respond_statusOk, BitVec.ofNat_toNat]

end Sys2Proof.Machine

/-! ## The alignment command (R80) -/

namespace Sys2Proof.Machine

open Sys2Proof

/-! The two halves of an argument at the word mask, as the remainder and the multiple of `W` -/

theorem and_wordMask_toNat (w : Width) (m : Arg) :
    (m &&& BitVec.ofNat 64 (wordMask w)).toNat = m.toNat % w.bits := by
  cases w
  · exact Nat.and_two_pow_sub_one_eq_mod m.toNat 5
  · exact Nat.and_two_pow_sub_one_eq_mod m.toNat 6

theorem and_wordMask_eq_zero_iff (w : Width) (m : Arg) :
    m &&& BitVec.ofNat 64 (wordMask w) = 0 ↔ w.bits ∣ m.toNat := by
  rw [← BitVec.toNat_inj, and_wordMask_toNat, Nat.dvd_iff_mod_eq_zero]
  exact Iff.rfl

/-- The bits under a mask and the bits above it share none, so they add up to the whole. -/
theorem and_add_and_not_toNat (x mask : BitVec 64) : (x &&& mask).toNat + (x &&& ~~~mask).toNat = x.toNat := by
  have hdisjoint : (x &&& mask) &&& (x &&& ~~~mask) = 0#64 := by ext k; cases h : mask[k] <;> simp [h]
  have hunion : (x &&& mask) ||| (x &&& ~~~mask) = x := by ext k; cases h : mask[k] <;> simp [h]
  rw [← BitVec.toNat_add_of_and_eq_zero hdisjoint, BitVec.add_eq_or_of_and_eq_zero _ _ hdisjoint, hunion]

theorem and_not_wordMask_toNat (w : Width) (m : Arg) :
    (m &&& ~~~(BitVec.ofNat 64 (wordMask w))).toNat = m.toNat / w.bits * w.bits := by
  have hsplit := and_add_and_not_toNat m (BitVec.ofNat 64 (wordMask w))
  have hdiv := Nat.mod_add_div' m.toNat w.bits
  rw [and_wordMask_toNat] at hsplit
  omega

theorem bits_dvd_two_pow_64 (w : Width) : w.bits ∣ 2 ^ 64 := by cases w <;> decide

/-- Both 2^64 and the next multiple above `m` are multiples of `W`: the one reaches the other exactly where at most a
word is left above `m`. -/
theorem two_pow_64_le_next_multiple_iff (w : Width) (m : Nat) :
    2 ^ 64 ≤ m / w.bits * w.bits + w.bits ↔ 2 ^ 64 - w.bits ≤ m := by
  cases w <;> simp only [Width.bits] <;> omega

/-! The rounding, each outcome from its own condition (R80, R86) -/

section AlignUp

variable {w : Width} {m : Arg}

theorem alignUp_of_dvd (hdvd : w.bits ∣ m.toNat) : alignUp w m = .ok m := by
  rw [alignUp, if_pos ((and_wordMask_eq_zero_iff w m).mpr hdvd)]

theorem alignUp_of_not_dvd (hdvd : ¬ w.bits ∣ m.toNat) :
    alignUp w m =
      if 2 ^ 64 ≤ m.toNat / w.bits * w.bits + w.bits then .error .alignOverflow
      else .ok (BitVec.ofNat 64 (m.toNat / w.bits * w.bits + w.bits)) := by
  rw [alignUp, if_neg (mt (and_wordMask_eq_zero_iff w m).mp hdvd), and_not_wordMask_toNat]

theorem alignUp_of_le (hdvd : ¬ w.bits ∣ m.toNat) (hle : m.toNat ≤ 2 ^ 64 - w.bits) :
    alignUp w m = .ok (BitVec.ofNat 64 (m.toNat / w.bits * w.bits + w.bits)) := by
  have hne : m.toNat ≠ 2 ^ 64 - w.bits := fun heq =>
    hdvd (heq ▸ Nat.dvd_sub (bits_dvd_two_pow_64 w) dvd_rfl)
  rw [alignUp_of_not_dvd hdvd, if_neg (mt (two_pow_64_le_next_multiple_iff w _).mp (by omega))]

theorem alignUp_of_gt (hdvd : ¬ w.bits ∣ m.toNat) (hgt : 2 ^ 64 - w.bits < m.toNat) :
    alignUp w m = .error .alignOverflow := by
  rw [alignUp_of_not_dvd hdvd, if_pos ((two_pow_64_le_next_multiple_iff w _).mpr hgt.le)]

end AlignUp

@[simp] theorem raise_alignOverflow (s : State) : s.raise .alignOverflow = s.recoverableResponse 0x3 := rfl

theorem exec_alignUp (m : Arg) (s : State) :
    exec (.alignUp m) s = s.perform (alignUp s.width m >>= fun r => .ok (s.respond statusOk r)) := rfl

/-- Settles O39: the three outcomes of the rounding, each performed or raised. -/
theorem alignUpRule : Obligations.AlignUpRule := by
  intro s m hf
  simp only [exec_alignUp]
  refine ⟨fun hdvd => ?_, fun hdvd hle => ?_, fun hdvd hgt => ?_⟩
  · rw [alignUp_of_dvd hdvd, ok_bind, perform_ok hf, respond_statusOk]
  · rw [alignUp_of_le hdvd hle, ok_bind, perform_ok hf, respond_statusOk]
  · rw [alignUp_of_gt hdvd hgt, error_bind, perform_error hf, raise_alignOverflow]

end Sys2Proof.Machine

/-! ## The errors: which command raises which, and what each leaves (R82 to R87, R89) -/

namespace Sys2Proof.Machine

open Sys2Proof

/-! The one form of every command: its checks, then a response OK (R90) -/

/-- The checks of a command (R90, steps 2 to 5), without the operand they give. -/
def State.checks (s : State) : Instr → Except Error Unit
  | .bvNew vd n | .cvNew vd n => s.newOperand vd n >>= fun _ => .ok ()
  | .bvSet vd x | .bvGet vd x | .bvGetset vd x => s.bitOperand vd x >>= fun _ => .ok ()
  | .bvOr vd vs | .bvAnd vd vs => s.pairOperand vd vs >>= fun _ => .ok ()
  | .bvClear vd | .bvIsempty vd => s.slotOfKind .bit vd >>= fun _ => .ok ()
  | .cvInc vd x | .cvDec vd x | .cvGet vd x => s.counterOperand vd x >>= fun _ => .ok ()
  | .cvClear vd => s.slotOfKind .ctr vd >>= fun _ => .ok ()
  | .alignUp m => Machine.alignUp s.width m >>= fun _ => .ok ()
  | .rdWord vd j => s.wordOperand vd j >>= fun _ => .ok ()
  | .reserved _ => .error .illegalCommand

/-- Every command finds its operand `op`, which raises all its errors, and then answers OK. -/
theorem exec_form (i : Instr) (s : State) :
    ∃ (α : Type) (op : Except Error α) (f : α → State) (r : α → BitVec 64),
      exec i s = s.perform (op >>= fun a => .ok ((f a).respond statusOk (r a))) ∧
      s.checks i = op >>= fun _ => .ok () := by
  cases i with
  | bvNew vd n | cvNew vd n => exact ⟨_, s.newOperand vd n, _, _, rfl, rfl⟩
  | bvSet vd x | bvGet vd x | bvGetset vd x => exact ⟨_, s.bitOperand vd x, _, _, rfl, rfl⟩
  | bvOr vd vs | bvAnd vd vs => exact ⟨_, s.pairOperand vd vs, _, _, rfl, rfl⟩
  | bvClear vd | bvIsempty vd => exact ⟨_, s.slotOfKind .bit vd, _, _, rfl, rfl⟩
  | cvInc vd x | cvDec vd x | cvGet vd x => exact ⟨_, s.counterOperand vd x, _, _, rfl, rfl⟩
  | cvClear vd => exact ⟨_, s.slotOfKind .ctr vd, _, _, rfl, rfl⟩
  | alignUp m => exact ⟨_, Machine.alignUp s.width m, _, _, rfl, rfl⟩
  | rdWord vd j => exact ⟨_, s.wordOperand vd j, _, _, rfl, rfl⟩
  | reserved hdr => exact ⟨Unit, .error .illegalCommand, fun _ => s, fun _ => 0, rfl, rfl⟩

theorem exec_eq_faultedResponse (i : Instr) {s : State} (hf : s.faulted = true) :
    exec i s = .next s.faultedResponse := by
  obtain ⟨α, op, f, r, hexec, -⟩ := exec_form i s
  rw [hexec, perform_of_faulted _ hf]

/-- Settles O17: the frame that every command is performed in begins with the refusal. -/
theorem faultedBlockRefusesEveryCommand : Obligations.FaultedBlockRefusesEveryCommand :=
  fun i _ hf => exec_eq_faultedResponse i hf

/-! The status code of an error (R52) and the state beside it (R89) -/

theorem Error.code_ne_statusOk (e : Error) : e.code ≠ statusOk := by
  cases e <;> decide

theorem Error.code_inj {e e' : Error} : e.code = e'.code ↔ e = e' := by
  cases e <;> cases e' <;> decide

@[simp] theorem raise_status (s : State) (e : Error) : (s.raise e).status = e.code := by
  cases e <;> rfl

/-- A command answers the code of an error exactly where its checks raise it. -/
theorem status_eq_code_iff {i : Instr} {s t : State} (e : Error) (hf : s.faulted = false) (h : exec i s = .next t) :
    t.status = e.code ↔ s.checks i = .error e := by
  obtain ⟨α, op, f, r, hexec, hchecks⟩ := exec_form i s
  rw [hexec] at h
  rw [hchecks]
  cases op with
  | error e' =>
    rw [error_bind, perform_error hf, Host.Outcome.next.injEq] at h
    simp [← h, Error.code_inj]
  | ok a =>
    rw [ok_bind, perform_ok hf, Host.Outcome.next.injEq] at h
    rw [← h, State.respond_status]
    simp [e.code_ne_statusOk.symm]

/-- The status code of an error stands beside the state that raising it leaves. -/
theorem eq_raise_of_status {i : Instr} {s t : State} (e : Error) (hf : s.faulted = false) (h : exec i s = .next t)
    (hst : t.status = e.code) : t = s.raise e := by
  rcases exec_cases h with ⟨hf', -⟩ | ⟨-, e', rfl⟩ | ⟨-, m, r, rfl, -⟩
  · simp [hf] at hf'
  · rw [Error.code_inj.mp ((raise_status s e').symm.trans hst)]
  · exact absurd hst.symm e.code_ne_statusOk

/-- Settles O21: the state left is that of the one error with the code, and a fatal one makes O17's rule apply. -/
theorem errorEffects : Obligations.ErrorEffects := by
  intro i s t hf h
  constructor
  · rintro (hst | hst | hst) <;> rw [hst]
    · exact eq_raise_of_status .incompatibleSize hf h hst
    · exact eq_raise_of_status .capacityExceeded hf h hst
    · exact eq_raise_of_status .alignOverflow hf h hst
  · intro hst
    have ht : t = s.fatalResponse t.status := by
      rcases hst with hst | hst <;> rw [hst]
      · exact eq_raise_of_status .outOfRange hf h hst
      · exact eq_raise_of_status .illegalCommand hf h hst
    have hfaulted : t.faulted = true := congrArg State.faulted ht
    exact ⟨ht, fun j => exec_eq_faultedResponse j hfaulted⟩

/-! The errors of each operand, exactly (R82 to R86) -/

section OperandErrors

variable {s : State} {h vd vs : Handle} {x : Arg} {e : Error}

theorem kind?_eq_some_iff {k : Kind} : s.kind? h = some k ↔ ∃ v, s.slot? h = some v ∧ v.kind = k :=
  Option.map_eq_some_iff

/-- A handle names no slot of kind `k` where it names none at all or one of another kind (R83 items 3 to 5). -/
theorem kind?_ne_some_iff {k : Kind} :
    s.kind? h ≠ some k ↔ s.numVectors ≤ h.toNat ∨ ∃ v, s.slot? h = some v ∧ v.kind ≠ k := by
  rw [← slot?_none_iff]
  cases hv : s.slot? h <;> simp [State.kind?, hv]

theorem kind?_eq_none_iff : s.kind? h = none ↔ s.numVectors ≤ h.toNat :=
  Option.map_eq_none_iff.trans (slot?_none_iff s h)

@[simp] theorem slotOfKind_eq_error_iff {k : Kind} :
    s.slotOfKind k h = .error e ↔ e = .illegalCommand ∧ s.kind? h ≠ some k := by
  rcases slotOfKind_eq s k h with ⟨v, hv, hk, ho⟩ | ⟨hk, ho⟩
  · simp [ho, kind?_of_slot hv, hk]
  · simp [ho, hk, eq_comm (b := e)]

/-- The errors of an index into a slot of kind `k` with `n` fields in a word: the kind first, then the bound (R90). -/
theorem indexOperand_eq_error_iff {k : Kind} {n : Nat} {p : Place} :
    (s.slotOfKind k h >>= fun v => check (x.toNat < v.len * n) .outOfRange >>= fun _ => Except.ok p) = .error e ↔
      (e = .illegalCommand ∧ s.kind? h ≠ some k) ∨
      (e = .outOfRange ∧ ∃ v, s.slot? h = some v ∧ v.kind = k ∧ v.len * n ≤ x.toNat) := by
  rcases slotOfKind_eq s k h with ⟨v, hv, hk, ho⟩ | ⟨hk, ho⟩
  · by_cases hx : x.toNat < v.len * n
    · simp [ho, check, kind?_of_slot hv, hv, hk, hx]
    · simp [ho, check_of_not hx, kind?_of_slot hv, hv, hk, Nat.le_of_not_lt hx, eq_comm (b := e)]
  · have hno : ∀ v, s.slot? h = some v → v.kind ≠ k := fun v hv hvk => hk (kind?_eq_some_iff.mpr ⟨v, hv, hvk⟩)
    simp +contextual [ho, hk, hno, eq_comm (b := e)]

@[simp] theorem bitOperand_eq_error_iff :
    s.bitOperand h x = .error e ↔
      (e = .illegalCommand ∧ s.kind? h ≠ some .bit) ∨
      (e = .outOfRange ∧ ∃ v, s.slot? h = some v ∧ v.kind = .bit ∧ v.len * s.width.bits ≤ x.toNat) :=
  indexOperand_eq_error_iff

@[simp] theorem counterOperand_eq_error_iff :
    s.counterOperand h x = .error e ↔
      (e = .illegalCommand ∧ s.kind? h ≠ some .ctr) ∨
      (e = .outOfRange ∧ ∃ v, s.slot? h = some v ∧ v.kind = .ctr ∧ v.len * s.width.counters ≤ x.toNat) := by
  rw [← countersPerWord_eq]
  exact indexOperand_eq_error_iff

@[simp] theorem wordOperand_eq_error_iff :
    s.wordOperand h x = .error e ↔
      (e = .illegalCommand ∧ (s.kind? h = none ∨ s.kind? h = some .none)) ∨
      (e = .outOfRange ∧ ∃ v, s.slot? h = some v ∧ v.kind ≠ .none ∧ v.len ≤ x.toNat) := by
  rcases wordOperand_eq s h x with ⟨v, hv, hk, hx, ho⟩ | ⟨hk, ho⟩ | ⟨v, hv, hk, hx, ho⟩
  · simp [ho, kind?_of_slot hv, hv, hk, hx]
  · have hno : ∀ v, s.slot? h = some v → v.kind = .none := fun v hv => by simpa [kind?_of_slot hv] using hk
    simp +contextual [ho, hk, hno, eq_comm (b := e)]
  · simp [ho, kind?_of_slot hv, hv, hk, hx, eq_comm (b := e)]

@[simp] theorem pairOperand_eq_error_iff :
    s.pairOperand vd vs = .error e ↔
      (e = .illegalCommand ∧ (s.kind? vd ≠ some .bit ∨ s.kind? vs ≠ some .bit)) ∨
      (e = .incompatibleSize ∧ ∃ v u, s.slot? vd = some v ∧ s.slot? vs = some u ∧ v.kind = .bit ∧ u.kind = .bit ∧
        v.len ≠ u.len) := by
  rcases pairOperand_eq s vd vs with ⟨v, u, hv, hu, hvk, huk, hl, ho⟩ | ⟨hk, ho⟩ | ⟨v, u, hv, hu, hvk, huk, hl, ho⟩
  · simp [ho, kind?_of_slot hv, kind?_of_slot hu, hv, hu, hvk, huk, hl]
  · have hno : ¬ ∃ v u, s.slot? vd = some v ∧ s.slot? vs = some u ∧ v.kind = .bit ∧ u.kind = .bit ∧ v.len ≠ u.len := by
      rintro ⟨v, u, hv, hu, hvk, huk, -⟩
      simp [kind?_of_slot hv, kind?_of_slot hu, hvk, huk] at hk
    rw [ho, and_iff_left hk, iff_false_intro hno, and_false, or_false, Except.error.injEq, eq_comm]
  · simp [ho, kind?_of_slot hv, kind?_of_slot hu, hv, hu, hvk, huk, hl, eq_comm (b := e)]

@[simp] theorem newOperand_eq_error_iff :
    s.newOperand h x = .error e ↔
      (e = .illegalCommand ∧ s.numVectors ≤ h.toNat) ∨
      (e = .capacityExceeded ∧ h.toNat < s.numVectors ∧ s.maxWords < x.toNat) := by
  rcases newOperand_eq s h x with ⟨hh, hx, ho⟩ | ⟨hh, ho⟩ | ⟨hh, hx, ho⟩
  · simp [ho, hh.not_ge, hx.not_gt, -State.numVectors_eq_length]
  · simp [ho, hh, hh.not_gt, eq_comm (b := e), -State.numVectors_eq_length]
  · simp [ho, hh, hx, hh.not_ge, eq_comm (b := e), -State.numVectors_eq_length]

@[simp] theorem alignUp_eq_error_iff {w : Width} {m : Arg} :
    alignUp w m = .error e ↔ e = .alignOverflow ∧ ¬ w.bits ∣ m.toNat ∧ 2 ^ 64 - w.bits < m.toNat := by
  by_cases hdvd : w.bits ∣ m.toNat
  · simp [alignUp_of_dvd hdvd, hdvd]
  · rcases le_or_gt m.toNat (2 ^ 64 - w.bits) with hle | hgt
    · simp [alignUp_of_le hdvd hle, hle.not_gt, -Nat.reducePow]
    · simp [alignUp_of_gt hdvd hgt, hdvd, hgt, eq_comm (b := e), -Nat.reducePow]

end OperandErrors

@[simp] theorem bind_unit_eq_error_iff {α : Type} {op : Except Error α} {e : Error} :
    (op >>= fun _ => Except.ok ()) = .error e ↔ op = .error e := by
  cases op <;> simp

/-! When each error is raised: command by command, the errors of its operand -/

/-- Settles O23: an index operand is the only one that raises OutOfRange. -/
theorem outOfRangeExactlyWhen : Obligations.OutOfRangeExactlyWhen := by
  intro i s t hf h
  refine ⟨eq_raise_of_status .outOfRange hf h, (status_eq_code_iff .outOfRange hf h).trans ?_⟩
  cases i with
  | bvSet vd x | bvGet vd x | bvGetset vd x => simp [State.checks, and_assoc]
  | cvInc vd x | cvDec vd x | cvGet vd x => simp [State.checks, and_assoc, Width.counters]
  | rdWord vd j => simp [State.checks, and_assoc]
  | _ => simp [State.checks]

/-- Settles O24: every operand raises IllegalCommand on a handle or a kind, but for `ALIGN_UP`, which has none. -/
theorem illegalCommandExactlyWhen : Obligations.IllegalCommandExactlyWhen := by
  refine ⟨fun c => by simp [decode_eq_reserved_iff], fun i s t hf h => ?_⟩
  refine ⟨eq_raise_of_status .illegalCommand hf h, (status_eq_code_iff .illegalCommand hf h).trans ?_⟩
  cases i with
  | bvOr vd vs | bvAnd vd vs =>
    simp [State.checks, Instr.names, kind?_ne_some_iff, and_assoc, or_and_right, exists_or, or_assoc, or_left_comm,
      -ne_eq]
  | rdWord vd j => simp [State.checks, Instr.names, kind?_eq_none_iff, kind?_eq_some_iff, and_assoc]
  | _ => simp [State.checks, Instr.names, kind?_ne_some_iff, and_assoc, -ne_eq]

/-- Settles O25: each recoverable error is raised by one operand, that of the commands named. -/
theorem recoverableErrorsExactlyWhen : Obligations.RecoverableErrorsExactlyWhen := by
  intro i s t hf h
  refine ⟨(status_eq_code_iff .incompatibleSize hf h).trans ?_, (status_eq_code_iff .capacityExceeded hf h).trans ?_,
    (status_eq_code_iff .alignOverflow hf h).trans ?_⟩
  · cases i with
    | bvOr vd vs | bvAnd vd vs => simp [State.checks, and_assoc]
    | _ => simp [State.checks]
  · cases i with
    | bvNew vd n | cvNew vd n => simp [State.checks, and_assoc]
    | _ => simp [State.checks]
  · cases i with
    | alignUp m => simp [State.checks]
    | _ => simp [State.checks]

end Sys2Proof.Machine

/-! ## The decoder and the encoder, row by row (R50, R51, R60) -/

namespace Sys2Proof

open Machine

@[simp] theorem mkHdr_vs (op : BitVec 4) (vd vs : Handle) : (mkHdr op vd vs).vs = vs := by
  ext k hk; interval_cases k <;> simp [mkHdr, Hdr.vs]

/-- A reserved term is well-formed exactly where its header is one the decoder reserves (R56). -/
theorem wellFormed_reserved_iff (hdr : Hdr) :
    (Instr.reserved hdr).wellFormed = true ↔ hdr.toNat / 2 ^ 12 ≠ 0 ∨ hdr.toNat % 16 = 15 := by
  have hrsv : hdr.extractLsb' 12 4 = 0 ↔ hdr.toNat / 2 ^ 12 = 0 := hdr.rsv_eq_zero_iff
  have hop : hdr.extractLsb' 0 4 = 0xF ↔ hdr.toNat % 16 = 15 := by
    rw [← hdr.op_toNat, ← BitVec.toNat_inj]; rfl
  rw [← hop, ne_eq, ← hrsv]
  simp [Instr.wellFormed]

/-- Settles O1: the decoder reads a command's own row in the header `mkHdr` packs, and gives a reserved header back. -/
theorem decodeOfEncodeIsIdentity : Obligations.DecodeOfEncodeIsIdentity := by
  intro i hwf
  cases i with
  | reserved hdr => exact (decode_eq_reserved_iff ⟨hdr, 0⟩ hdr).mpr ⟨rfl, (wellFormed_reserved_iff hdr).mp hwf⟩
  | _ => simp [encode, decode_mkHdr, decodeOp]

/-- Settles O2: R50's number is the header `mkHdr` packs, and its OP field selects the row. -/
theorem opcodeMapDecodes : Obligations.OpcodeMapDecodes := by
  intro vd vs x hdr
  have hpack : ∀ op : BitVec 4, mkHdr op vd vs = hdr op.toNat := fun op => mkHdr_eq_ofNat op vd vs
  have hrow : ∀ (op : BitVec 4) {i : Instr}, decodeOp (mkHdr op vd vs) x = i → decode ⟨hdr op.toNat, x⟩ = i :=
    fun op i h => by rw [← hpack, decode_mkHdr, h]
  have hreserved : decodeOp (mkHdr 0xF vd vs) x = .reserved (hdr 0xF) :=
    (decodeOp_eq_reserved_iff ..).mpr ⟨(hpack 0xF).symm, by simp⟩
  refine ⟨hpack, hrow 0x0 ?_, hrow 0x1 ?_, hrow 0x2 ?_, hrow 0x3 ?_, hrow 0x4 ?_, hrow 0x5 ?_, hrow 0x6 ?_,
    hrow 0x7 ?_, hrow 0x8 ?_, hrow 0x9 ?_, hrow 0xA ?_, hrow 0xB ?_, hrow 0xC ?_, hrow 0xD ?_, hrow 0xE ?_,
    hrow 0xF hreserved⟩ <;>
    simp [decodeOp]

/-- Settles O5: the eight words lie in rows of the opcode map. -/
theorem exampleWordsDecode : Obligations.ExampleWordsDecode := by
  unfold Obligations.ExampleWordsDecode
  decide

/-- Settles O6: a command's line names its mnemonic's row, and that row holds its opcode and operands. -/
theorem assemblerAgreesWithEncoder : Obligations.AssemblerAgreesWithEncoder := by
  intro i line h
  cases i with
  | reserved hdr => cases h
  | _ =>
    cases h
    rfl

end Sys2Proof

/-! ## Steps and runs: the ports, reset, the invariant and the fault state -/

namespace Sys2Proof.Machine

open Sys2Proof

/-! One step, by the host's next action -/

/-- Performing a command answers a next state, whatever its body (R107). -/
theorem perform_answers (s : State) (body : Except Error State) : ∃ t, s.perform body = .next t := by
  cases hf : s.faulted with
  | true => exact ⟨_, perform_of_faulted body hf⟩
  | false =>
    cases body with
    | ok t => exact ⟨t, perform_ok hf⟩
    | error e => exact ⟨_, perform_error hf⟩

theorem exec_answers (i : Instr) (s : State) : ∃ t, exec i s = .next t := by
  obtain ⟨α, op, f, r, hexec, -⟩ := exec_form i s
  rw [hexec]
  exact perform_answers s _

theorem State.offer_of_responding {s : State} (hp : s.port = .responding) (c : Command) (rest : List HostAction) :
    s.offer c rest = .fault .responsePending := by
  simp [State.offer, hp]

theorem step_of_commandChanged {s : State} {first : Command} {later : List Command} {rest : List HostAction}
    (hh : s.host = .commandChanged first later :: rest) :
    step s = State.offer { s with draws := s.draws + 1 }
      (presentedCommand (Config.presentedChoice s.draws) first later) rest := by
  simp [step, hh]

theorem step_of_no_action {s : State} (hh : s.host = []) : step s = .next s.idle := by
  simp [step, hh]

theorem step_of_takeResponse {s : State} {rest : List HostAction} (hh : s.host = .takeResponse :: rest) :
    step s = .next { s.deliver with host := rest } := by
  simp [step, hh]

theorem step_of_reset {s : State} {rest : List HostAction} (hh : s.host = .reset :: rest) :
    step s = .next { s.applyReset with host := rest } := by
  simp [step, hh]

/-- A block's `rsp_valid` is the phase in which a response is on offer (R54). -/
theorem rspValid_iff (s : State) : s.outputs.rspValid = true ↔ s.port = .responding := by
  simp [State.outputs]

/-- Settles O9: every body is performed to an end, and acceptance alone decides whether a step performs one. -/
theorem everyAcceptedCommandCompletes : Obligations.EveryAcceptedCommandCompletes := by
  refine ⟨exec_answers, fun s c rest hh hv => ?_, fun s c rest hh hv => ?_⟩
  · have hport : s.port ≠ .responding := fun hp => by simp [(rspValid_iff s).mpr hp] at hv
    obtain ⟨t, ht⟩ := exec_answers (decode c) (s.accepted rest)
    obtain ⟨-, hresponding, hrest, -⟩ := exec_frame ht
    refine ⟨t, ?_, hrest, (rspValid_iff t).mpr hresponding⟩
    rw [step_of_command hh, State.offer_of_not_responding hport, ht]
  · rw [step_of_command hh, State.offer_of_responding ((rspValid_iff s).mp hv)]

theorem presentedCommand_mem (choice : Nat) (first : Command) (later : List Command) :
    presentedCommand choice first later ∈ first :: later := by
  have hlt : choice % (later.length + 1) < (first :: later).length := Nat.mod_lt _ (Nat.succ_pos _)
  rw [presentedCommand, List.getElem?_eq_getElem hlt]
  exact List.getElem_mem hlt

/-- Settles O11: the command offered is the one the free choice picks among those presented. -/
theorem changedCommandIsOneOfThosePresented : Obligations.ChangedCommandIsOneOfThosePresented := by
  intro s first later rest hh
  refine ⟨_, presentedCommand_mem (Config.presentedChoice s.draws) first later, ?_⟩
  rw [step_of_commandChanged hh, step_of_command rfl]
  rfl

/-- Settles O10: of the five things a step can be, a block with a response on offer performs no command. -/
theorem responseIsHeldUntilTaken : Obligations.ResponseIsHeldUntilTaken := by
  intro s t hp h
  refine ⟨by simp [State.outputs, hp], (rspValid_iff s).mpr hp, ?_⟩
  rcases step_cases h with ⟨hh, rfl⟩ | ⟨rest, hh, rfl⟩ | ⟨rest, hh, rfl⟩ | ⟨c, rest, -, hne, -⟩ |
    ⟨first, later, rest, c, -, hne, -⟩
  · exact .inl ⟨hh, by simp [State.idle, hp]⟩
  · exact .inr (.inl ⟨rest, hh, by rw [State.deliver_eq]⟩)
  · exact .inr (.inr ⟨rest, hh, rfl, rfl⟩)
  · exact absurd hp hne
  · exact absurd hp hne

/-! What every step keeps -/

theorem config_applyReset (s : State) : s.applyReset.config = s.config := by
  simp [State.config]

/-- Settles O14: no action of the host reaches a parameter, and no command does (`exec_frame`). -/
theorem parametersAreFixed : Obligations.ParametersAreFixed := by
  intro s t h
  rcases step_cases h with ⟨-, rfl⟩ | ⟨rest, -, rfl⟩ | ⟨rest, -, rfl⟩ | ⟨c, rest, -, -, he⟩ |
    ⟨first, later, rest, c, -, -, he⟩
  · rw [State.idle_eq]; rfl
  · rw [State.deliver_eq]; rfl
  · exact config_applyReset s
  · exact (exec_frame he).1
  · exact (exec_frame he).1

/-- A step does the host's next action and leaves the ones after it. -/
theorem step_host {s t : State} (h : step s = .next t) : t.host = s.host.tail := by
  rcases step_cases h with ⟨hh, rfl⟩ | ⟨rest, hh, rfl⟩ | ⟨rest, hh, rfl⟩ | ⟨c, rest, hh, -, he⟩ |
    ⟨first, later, rest, c, hh, -, he⟩
  · simp [hh]
  · simp [hh]
  · simp [hh]
  · rw [hh]; exact (exec_frame he).2.2.1
  · rw [hh]; exact (exec_frame he).2.2.1

/-- The invariant speaks of the parameters, the slots and the fault state alone. -/
theorem State.Inv.congr {s t : State} (hconfig : t.config = s.config) (hslots : t.slots = s.slots)
    (hfaulted : t.faulted = s.faulted) (hcode : t.faultCode = s.faultCode) (h : s.Inv) : t.Inv := by
  have hwidth : t.width = s.width := congrArg Config.width hconfig
  have hmax : t.maxWords = s.maxWords := congrArg Config.maxWords hconfig
  unfold State.Inv State.faultCodeOk
  rwa [hconfig, hslots, hwidth, hmax, hfaulted, hcode]

theorem Memory.wf_replicate_unallocated (w : Width) {n : Nat} (maxWords : Nat) (h2 : 2 ≤ n) (h16 : n ≤ 16) :
    Memory.wf w maxWords (List.replicate n Slot.unallocated) = true := by
  refine (Memory.wf_iff ..).mpr ⟨by simpa using h2, by simpa using h16, fun v hv => ?_⟩
  rw [(List.mem_replicate.mp hv).2]
  exact Slot.unallocated_wf w maxWords

theorem inv_afterReset {c : Config} (hc : c.Legal) : (State.afterReset c).Inv := by
  have hconfig : (State.afterReset c).config = c := by simp [State.config, State.afterReset]
  refine ⟨hconfig.symm ▸ hc, ?_, fun _ => rfl, fun hf => by cases hf⟩
  exact Memory.wf_replicate_unallocated _ _ hc.1 hc.2.1

/-- Settles O16: `State.reset` is the reset state of the test configuration, which is legal. -/
theorem invariantAfterReset : Obligations.InvariantAfterReset :=
  ⟨fun _ hc => inv_afterReset hc, inv_afterReset (by decide)⟩

/-- A command keeps the invariant: what it performs keeps the form of the memory, and a fatal error sets the fault state
consistently. -/
theorem exec_inv {i : Instr} {s t : State} (hs : s.Inv) (h : exec i s = .next t) : t.Inv := by
  have hconfig := (exec_frame h).1
  rcases exec_response_cases h with ⟨-, rfl⟩ | ⟨-, c, hc, rfl⟩ | ⟨-, c, -, rfl⟩ | ⟨-, m, r, rfl, -, -, -, hwf⟩
  · exact hs.congr rfl rfl rfl rfl
  · obtain ⟨hlegal, hmem, -⟩ := hs
    exact ⟨hlegal, hmem, fun hf => by simp at hf, fun _ => hc⟩
  · exact hs.congr rfl rfl rfl rfl
  · obtain ⟨hlegal, hmem, hfault⟩ := hs
    exact ⟨hconfig ▸ hlegal, hwf hmem, hfault⟩

/-- Settles O15: reset gives the state of O16, a command keeps the invariant, and the other steps change nothing it
speaks of. -/
theorem invariantKeptByEveryStep : Obligations.InvariantKeptByEveryStep := by
  intro s t hs h
  have hconfig := parametersAreFixed s t h
  rcases step_cases h with ⟨-, rfl⟩ | ⟨rest, -, rfl⟩ | ⟨rest, -, rfl⟩ | ⟨c, rest, -, -, he⟩ |
    ⟨first, later, rest, c, -, -, he⟩
  · exact hs.congr hconfig (by simp) (by simp) (by simp)
  · exact hs.congr hconfig (by simp) (by simp) (by simp)
  · exact (inv_afterReset hs.1).congr rfl rfl rfl rfl
  · refine exec_inv ?_ he
    exact hs.congr rfl rfl rfl rfl
  · refine exec_inv ?_ he
    exact hs.congr rfl rfl rfl rfl

/-! Reset -/

theorem slot?_applyReset {s : State} {h : Handle} (hlt : h.toNat < s.numVectors) :
    s.applyReset.slot? h = some Slot.unallocated :=
  slot?_afterReset (c := s.config) hlt

/-- Settles O13: reset is O12's state of the same parameters; any other step keeps a set fault state. -/
theorem resetStep : Obligations.ResetStep := by
  refine ⟨fun s rest hh => ?_, fun s t hf h ht => ?_⟩
  · refine ⟨_, step_of_reset hh, config_applyReset s, fun h hlt => slot?_applyReset hlt, rfl, rfl, rfl, rfl, rfl, rfl,
      rfl, fun hrest => ?_, fun c rest' hrest => ?_⟩
    · rw [step_of_no_action hrest]; rfl
    · exact stepRunsTheOfferedCommand _ c rest' hrest (by simp)
  · by_contra hno
    have hkept := (step_of_faulted hf (fun rest hh => hno ⟨rest, hh⟩) h).1
    simp [ht] at hkept

/-! Runs -/

/-- The actions a run of `k + 1` steps does are the first one and those a run of `k` steps does after it. -/
theorem forall_host_take_succ {p : HostAction → Prop} {s t : State} {k : Nat} (h : step s = .next t)
    (hp : ∀ a ∈ s.host.take (k + 1), p a) :
    (∀ a rest, s.host = a :: rest → p a) ∧ ∀ a ∈ t.host.take k, p a := by
  rw [step_host h]
  cases hh : s.host with
  | nil => simp
  | cons a rest =>
    simp only [hh, List.take_succ_cons, List.forall_mem_cons] at hp
    simpa using hp

/-- Settles O20, by induction on the run: no step of it is a reset, so each keeps the fault state and the slots. -/
theorem firstFatalCodeKeptOverRuns : Obligations.FirstFatalCodeKeptOverRuns := by
  intro k
  induction k with
  | zero =>
    intro s t hf _ h
    cases h
    exact ⟨hf, rfl, rfl⟩
  | succ k ih =>
    intro s t hf hno h
    obtain ⟨u, hu, ht⟩ := steps_succ_next h
    obtain ⟨hfirst, hlater⟩ := forall_host_take_succ hu hno
    obtain ⟨huf, hucode, huslots⟩ := step_of_faulted hf (fun rest hh => hfirst _ rest hh rfl) hu
    obtain ⟨htf, htcode, htslots⟩ := ih u t huf hlater ht
    exact ⟨htf, htcode.trans hucode, htslots.trans huslots⟩

theorem steps_succ_of_step {k : Nat} {s t : State} (h : step s = .next t) : steps (k + 1) s = steps k t := by
  simp [steps, h]

/-- What a step without a command leaves: all but the port and the host's list. -/
theorem step_without_command {s : State} (hh : ∀ a rest, s.host = a :: rest → a = .takeResponse) :
    ∃ p l, step s = .next { s with port := p, host := l } := by
  cases hl : s.host with
  | nil => exact ⟨_, _, by rw [step_of_no_action hl, State.idle_eq]⟩
  | cons a rest =>
    obtain rfl := hh a rest hl
    exact ⟨_, _, by rw [step_of_takeResponse hl, State.deliver_eq]⟩

/-- Settles O49: the two kinds of step as they are, and the run by induction on its length. -/
theorem responseIsKeptUntilTheNextCommand : Obligations.ResponseIsKeptUntilTheNextCommand := by
  refine ⟨fun s hh => ?_, fun s rest hh => ?_, fun k => ?_⟩
  · rw [step_of_no_action hh, State.idle_eq]
  · rw [step_of_takeResponse hh, State.deliver_eq]
  · induction k with
    | zero => exact fun s _ => ⟨s, rfl, rfl, rfl, rfl, rfl, rfl, rfl, rfl⟩
    | succ k ih =>
      intro s hs
      have hnext : ∀ a rest, s.host = a :: rest → a = .takeResponse := fun a rest hh =>
        hs a (by simp [hh])
      obtain ⟨p, l, hstep⟩ := step_without_command hnext
      obtain ⟨t, ht, hst, hres, hslots, hf, hcode, hconfig, hhost⟩ := ih _ (forall_host_take_succ hstep hs).2
      refine ⟨t, (steps_succ_of_step hstep).trans ht, hst, hres, hslots, hf, hcode, hconfig, ?_⟩
      rw [hhost, step_host hstep, List.drop_tail]

/-! The status codes (R52, R53) -/

/-- Settles O22: each of the four responses of a command has its own codes. -/
theorem onlyListedStatusCodes : Obligations.OnlyListedStatusCodes := by
  intro i s t h
  rcases exec_response_cases h with ⟨hf, rfl⟩ | ⟨hf, c, hc, rfl⟩ | ⟨hf, c, hc, rfl⟩ | ⟨hf, m, r, rfl, -⟩
  · simp [hf]
  · rcases hc with rfl | rfl <;> simp [hf]
  · rcases hc with rfl | rfl | rfl <;> simp [hf]
  · simp [hf]

end Sys2Proof.Machine

/-! ## The laws of the commands: places, packing, alignment, and commands in a row -/

namespace Sys2Proof.Machine

open Sys2Proof

/-! Places and packing (R33 to R35, R72, R73) -/

/-- Settles O43: both places are quotient and remainder, and the quotient is below `len` where the index is in range. -/
theorem placesSplitTheIndex : Obligations.PlacesSplitTheIndex := by
  intro w i len
  have hbit : bitPlace w i = ⟨i / w.bits, i % w.bits⟩ := by rw [← bitPlace_word, ← bitPlace_pos]
  have hcounter : counterPlace w i = ⟨i / w.counters, i % w.counters⟩ := by
    rw [← counterPlace_word, ← counterPlace_pos]
  refine ⟨hbit, hcounter, ?_, ?_⟩
  · rw [bitPlace_word, Nat.div_lt_iff_lt_mul (bits_pos w)]
  · rw [counterPlace_word, Nat.div_lt_iff_lt_mul (counters_pos w)]; rfl

/-- Bit `p` lies in the nibble of the counter that stands `p / 4` nibbles above the lowest, and in no other (R34). -/
theorem mem_nibble_iff {w : Width} {b p : Nat} (hb : b < w.counters) :
    nibbleShift w b ≤ p ∧ p < nibbleShift w b + 4 ↔ b = w.counters - 1 - p / 4 ∧ p / 4 < w.counters := by
  unfold nibbleShift
  rw [countersPerWord_eq]
  omega

/-- Settles O42: bit `p` of the word lies in the nibble of counter `S - 1 - p / 4` alone. -/
theorem counterNibblesTileTheWord : Obligations.CounterNibblesTileTheWord := by
  intro w
  have hbits := bits_eq_four_mul_counters w
  have hpos := counters_pos w
  rw [countersPerWord_eq]
  refine ⟨by omega, fun b _ => nibbleShift_add_four_le w b, fun p hp => ?_⟩
  refine ⟨w.counters - 1 - p / 4, by omega, fun b hb => (mem_nibble_iff hb).trans ?_⟩
  exact and_iff_left (by omega)

/-- Settles O41: a read after a write, at its own and at another place, and the bits the write leaves. -/
theorem counterPackingIdentities : Obligations.CounterPackingIdentities := by
  intro w x b v hb
  have hshift : nibbleShift w b = 4 * (w.bits / 4 - 1 - b) := by
    rw [nibbleShift, countersPerWord_eq, Nat.mul_comm]; rfl
  refine ⟨counterAt_withCounterSet_same .., fun b' hb' hne => counterAt_withCounterSet_other w x b b' v hb hb' hne,
    withCounterSet_lt .., fun p hp hout => ?_⟩
  rw [withCounterSet_getLsbD, hshift, if_neg hout]
  simp [hp]

/-! The alignment command (R80, R81) -/

/-- Where the rounding answers, it answers the multiple of `W` that is at `m` or less than a word above it. -/
theorem alignUp_ok {w : Width} {m : Arg} {r : BitVec 64} (h : alignUp w m = .ok r) :
    w.bits ∣ r.toNat ∧ m.toNat ≤ r.toNat ∧ r.toNat < m.toNat + w.bits := by
  have hW := bits_pos w
  by_cases hdvd : w.bits ∣ m.toNat
  · obtain rfl : m = r := by simpa [alignUp_of_dvd hdvd] using h
    exact ⟨hdvd, le_rfl, by omega⟩
  · rw [alignUp_of_not_dvd hdvd] at h
    split at h
    case isTrue => cases h
    case isFalse hfits =>
      obtain rfl := Except.ok.inj h
      have hdiv := Nat.div_add_mod' m.toNat w.bits
      have hmod := Nat.mod_lt m.toNat hW
      have hne : m.toNat % w.bits ≠ 0 := mt Nat.dvd_of_mod_eq_zero hdvd
      rw [BitVec.toNat_ofNat, Nat.mod_eq_of_lt (Nat.not_le.mp hfits)]
      exact ⟨(Nat.dvd_mul_left ..).add dvd_rfl, by omega, by omega⟩

/-- A multiple of `n` that is at `m` or less than `n` above it is reached by the same multiples of `n` as `m`. -/
theorem le_mul_iff_div_le_of_lt_add {n m r : Nat} (hdvd : n ∣ r) (hle : m ≤ r) (hlt : r < m + n) (q : Nat) :
    m ≤ q * n ↔ r / n ≤ q := by
  constructor
  · intro hm
    have hsucc : r < (q + 1) * n := by rw [Nat.succ_mul]; omega
    exact Nat.le_of_lt_succ ((Nat.div_lt_iff_lt_mul (by omega)).mpr hsucc)
  · intro hq
    exact hle.trans ((Nat.div_le_iff_le_mul_of_dvd (by omega) hdvd).mp hq)

/-- `ALIGN_UP` that answers OK has rounded its argument. -/
theorem exec_alignUp_ok {m : Arg} {s t : State} (hf : s.faulted = false) (h : exec (.alignUp m) s = .next t)
    (hst : t.status = 0x0) : ∃ r, alignUp s.width m = .ok r ∧ t = s.okResponse r := by
  rw [exec_alignUp] at h
  cases ha : alignUp s.width m with
  | error e =>
    rw [ha, error_bind, perform_error hf, Host.Outcome.next.injEq] at h
    exact absurd (h ▸ hst) (by rw [raise_status]; exact e.code_ne_statusOk)
  | ok r =>
    rw [ha, ok_bind, perform_ok hf, Host.Outcome.next.injEq] at h
    exact ⟨r, rfl, h.symm⟩

/-- Settles O40: all the laws follow from `alignUp_ok`'s three. -/
theorem alignUpLaws : Obligations.AlignUpLaws := by
  intro s t m hf h hst
  obtain ⟨r, ha, rfl⟩ := exec_alignUp_ok hf h hst
  obtain ⟨hdvd, hle, hlt⟩ := alignUp_ok ha
  have hreach := le_mul_iff_div_le_of_lt_add hdvd hle hlt
  have hleast : ∀ q, s.width.bits ∣ q → m.toNat ≤ q → r.toNat ≤ q := by
    rintro q hq hm
    rw [← Nat.div_mul_cancel hq] at hm ⊢
    exact (Nat.div_le_iff_le_mul_of_dvd (bits_pos _).ne' hdvd).mp ((hreach _).mp hm)
  refine ⟨Nat.mod_eq_zero_of_dvd hdvd, hle, hlt, hleast, ?_, ⟨?_, fun hm => ?_⟩, hreach⟩
  · have hrefit : alignUp (s.okResponse r).width r = .ok r := alignUp_of_dvd hdvd
    rw [State.okResponse_result, exec_alignUp, hrefit, ok_bind, perform_ok (by exact hf)]
    rfl
  · rintro rfl
    exact Nat.mod_eq_zero_of_dvd hdvd
  · exact BitVec.eq_of_toNat_eq (Nat.le_antisymm (hleast _ (Nat.dvd_of_mod_eq_zero hm) le_rfl) hle)

end Sys2Proof.Machine

/-! ## The laws of the vector commands: commands in a row, word loops and independent slots -/

namespace Sys2Proof.Machine

open Sys2Proof

/-! A flag or a counter that a view shows is an operand in range -/

section InRange

variable {s : State} {h : Handle} {x : Arg}

/-- A field that a view shows is in a word of the slot, so its index is below the bound. -/
theorem lt_len_mul_of_word? {i n : Nat} {w : Word} (hn : 0 < n) (hw : s.word? h (i / n) = some w) :
    ∃ v, s.slot? h = some v ∧ i < v.len * n := by
  obtain ⟨v, hv, hword⟩ := Option.bind_eq_some_iff.mp hw
  exact ⟨v, hv, (Nat.div_lt_iff_lt_mul hn).mp (List.getElem?_eq_some_iff.mp hword).1⟩

theorem bitOperand_of_bit? {b : Bool} (hk : s.kind? h = some .bit) (hb : s.bit? h x.toNat = some b) :
    s.bitOperand h x = .ok (bitPlace s.width x.toNat) := by
  obtain ⟨w, hw, -⟩ := Option.map_eq_some_iff.mp hb
  obtain ⟨v, hv, hx⟩ := lt_len_mul_of_word? (bits_pos _) hw
  exact bitOperand_of_lt hv (Option.some.inj ((kind?_of_slot hv).symm.trans hk)) hx

/-- The single-counter commands' rules ask for a slot and an index below its bound. -/
theorem slot_of_counter? {i c : Nat} (hk : s.kind? h = some .ctr) (hc : s.counter? h i = some c) :
    ∃ v, s.slot? h = some v ∧ v.kind = .ctr ∧ i < v.len * s.width.counters := by
  obtain ⟨w, hw, -⟩ := Option.map_eq_some_iff.mp hc
  obtain ⟨v, hv, hx⟩ := lt_len_mul_of_word? (counters_pos _) hw
  exact ⟨v, hv, Option.some.inj ((kind?_of_slot hv).symm.trans hk), hx⟩

end InRange

@[simp] theorem State.setBit_faulted (s : State) (h : Handle) (p : Place) : (s.setBit h p).faulted = s.faulted := rfl

@[simp] theorem kind?_setBit (s : State) (g h : Handle) (p : Place) : (s.setBit h p).kind? g = s.kind? g :=
  kind?_memWrite ..

/-! The single-bit commands in a row (R63 to R65, R71) -/

section SingleBit

variable {s : State} {vd : Handle} {x : Arg} {b : Bool}

theorem exec_bvSet_of_bit? (hf : s.faulted = false) (hk : s.kind? vd = some .bit) (hb : s.bit? vd x.toNat = some b) :
    exec (.bvSet vd x) s = .next ((s.setBit vd (bitPlace s.width x.toNat)).okResponse 0) := by
  rw [exec_bvSet, bitOperand_of_bit? hk hb, ok_bind, perform_ok hf, respond_statusOk]

theorem exec_bvGet_of_bit? (hf : s.faulted = false) (hk : s.kind? vd = some .bit) (hb : s.bit? vd x.toNat = some b) :
    exec (.bvGet vd x) s = .next (s.okResponse (if b then 1 else 0)) := by
  rw [exec_bvGet, bitOperand_of_bit? hk hb, ok_bind, perform_ok hf, respond_statusOk, readBit_bitPlace hb]

theorem exec_bvGetset_of_bit? (hf : s.faulted = false) (hk : s.kind? vd = some .bit)
    (hb : s.bit? vd x.toNat = some b) :
    exec (.bvGetset vd x) s =
      .next ((s.setBit vd (bitPlace s.width x.toNat)).okResponse (if b then 1 else 0)) := by
  rw [exec_bvGetset, bitOperand_of_bit? hk hb, ok_bind, perform_ok hf, respond_statusOk, readBit_bitPlace hb]

theorem bit?_setBit_same (hb : s.bit? vd x.toNat = some b) :
    (s.setBit vd (bitPlace s.width x.toNat)).bit? vd x.toNat = some true := by
  simp [bit?_setBit, hb]

theorem bit?_setBit_other {g : Handle} {i k : Nat} (hne : (g, k) ≠ (vd, i)) :
    (s.setBit vd (bitPlace s.width i)).bit? g k = s.bit? g k := by
  rw [bit?_setBit, if_neg (by simpa using hne)]

/-- Once a flag was set, reading it answers 1 and so does setting it again, which then changes no slot. -/
theorem exec_of_bit?_true (hf : s.faulted = false) (hk : s.kind? vd = some .bit) (hb : s.bit? vd x.toNat = some true) :
    exec (.bvGet vd x) s = .next (s.okResponse 1) ∧ exec (.bvGetset vd x) s = .next (s.okResponse 1) := by
  rw [exec_bvGet_of_bit? hf hk hb, exec_bvGetset_of_bit? hf hk hb, setBit_self hb, if_pos rfl]
  exact ⟨rfl, rfl⟩

end SingleBit

/-- Settles O44: both commands leave the slots of `State.setBit`, in which the flag reads 1 and every other one as
before. -/
theorem setThenGetLaws : Obligations.SetThenGetLaws := by
  intro s vd x v hf hv hk hx
  have hkind : s.kind? vd = some .bit := hk ▸ kind?_of_slot hv
  obtain ⟨w, -, hb⟩ := bit?_isSome_of_lt hv hx
  have hafter : ∀ t : State, (∃ r, t = (s.setBit vd (bitPlace s.width x.toNat)).okResponse r) →
      exec (.bvGet vd x) t = .next (t.okResponse 1) ∧ exec (.bvGetset vd x) t = .next (t.okResponse 1) := by
    rintro t ⟨r, rfl⟩
    exact exec_of_bit?_true (by simp [hf]) (by simp [hkind]) (by simp [bit?_setBit_same hb])
  refine ⟨_, _, _, exec_bvSet_of_bit? hf hkind hb, exec_bvGetset_of_bit? hf hkind hb, exec_bvGet_of_bit? hf hkind hb,
    (hafter _ ⟨_, rfl⟩).1, (hafter _ ⟨_, rfl⟩).1, (hafter _ ⟨_, rfl⟩).2, fun g k hne => ?_, rfl, rfl⟩
  rw [bit?_okResponse, bit?_setBit_other hne]

/-! The whole-slot commands, where they are performed, as equations (R62, R66 to R68, R74, R78) -/

section Performed

variable {s : State} {h vd vs : Handle} {v u : Slot} {k : Kind} {n : Arg}

theorem perform_clearSlot (hf : s.faulted = false) (hv : s.slot? h = some v) (hk : v.kind = k) :
    s.perform (s.clearSlot k h) = .next ((s.setWords h (List.replicate v.len 0)).okResponse 0) := by
  rw [State.clearSlot, slotOfKind_of_kind hv hk, ok_bind, perform_ok hf, respond_statusOk]

theorem perform_combine (f : Word → Word → Word) (hf : s.faulted = false) (hv : s.slot? vd = some v)
    (hu : s.slot? vs = some u) (hvk : v.kind = .bit) (huk : u.kind = .bit) (hl : v.len = u.len) :
    s.perform (s.combine f vd vs) = .next ((s.setWords vd (List.zipWith f v.words u.words)).okResponse 0) := by
  rw [State.combine, pairOperand_of_len_eq hv hu hvk huk hl, ok_bind, perform_ok hf, respond_statusOk]

theorem perform_allocate (k : Kind) (hf : s.faulted = false) (hh : h.toNat < s.numVectors)
    (hn : n.toNat ≤ s.maxWords) :
    s.perform (s.allocate k h n) = .next ((s.setSlot h (Slot.zeroed k n.toNat)).okResponse 0) := by
  rw [State.allocate, newOperand_of_le hh hn, ok_bind, perform_ok hf, respond_statusOk]

/-- Writing back the words a slot holds changes nothing. -/
theorem setWords_self (hv : s.slot? h = some v) : s.setWords h v.words = s := by
  have hslots : s.slots.modify h.toNat (fun u => { u with words := v.words }) = s.slots := by
    apply List.ext_getElem?
    intro i
    rw [List.getElem?_modify]
    split
    · next hi =>
      subst hi
      rw [show s.slots[h.toNat]? = some v from hv]; rfl
    · simp
  rw [State.setWords, hslots]

theorem setSlot_self (hv : s.slot? h = some v) : s.setSlot h v = s := by
  obtain ⟨hlt, hget⟩ := List.getElem?_eq_some_iff.mp hv
  rw [State.setSlot, ← hget, List.set_getElem_self]

end Performed

theorem slot?_setWords_other {s : State} {g h : Handle} (ws : List Word) (hne : g ≠ h) :
    (s.setWords h ws).slot? g = s.slot? g := by
  rw [slot?_setWords, if_neg hne]

/-! After a clear, and the two orders of a combination (R71) -/

theorem bvGet_after_bvClear {s t : State} {vd : Handle} {x : Arg} {v : Slot} (hf : s.faulted = false)
    (hv : s.slot? vd = some v) (hk : v.kind = .bit) (hx : x.toNat < v.len * s.width.bits)
    (h : exec (.bvClear vd) s = .next t) : exec (.bvGet vd x) t = .next (t.okResponse 0) := by
  rw [exec_bvClear, perform_clearSlot hf hv hk, Host.Outcome.next.injEq] at h
  subst h
  have hkind := hk ▸ kind?_setWords_same hv (List.replicate v.len 0)
  have hb : (s.setWords vd (List.replicate v.len 0)).bit? vd x.toNat = some false := by
    have hj := div_lt_len (bits_pos _) hx
    simp [State.bit?, word?_of_slot (slot?_setWords_same hv _), List.getElem?_replicate_of_lt hj]
  exact exec_bvGet_of_bit? (by exact hf) hkind hb

/-- A commutative combination of two slots leaves the same slot in whichever of them it is left. -/
theorem slot?_combine_comm {s t t' : State} {a b : Handle} {f : Word → Word → Word} (hcomm : ∀ x y, f x y = f y x)
    (ha : s.kind? a = some .bit) (hb : s.kind? b = some .bit) (hf : s.faulted = false)
    (hl : (s.slot? a).map Slot.len = (s.slot? b).map Slot.len)
    (h : s.perform (s.combine f a b) = .next t) (h' : s.perform (s.combine f b a) = .next t') :
    t.slot? a = t'.slot? b := by
  obtain ⟨v, hv, hvk⟩ := kind?_eq_some_iff.mp ha
  obtain ⟨u, hu, huk⟩ := kind?_eq_some_iff.mp hb
  have hlen : v.len = u.len := by simpa [hv, hu] using hl
  rw [perform_combine f hf hv hu hvk huk hlen, Host.Outcome.next.injEq] at h
  rw [perform_combine f hf hu hv huk hvk hlen.symm, Host.Outcome.next.injEq] at h'
  rw [← h, ← h', slot?_okResponse, slot?_okResponse, slot?_setWords_same hv, slot?_setWords_same hu, hvk, huk,
    List.zipWith_comm_of_comm hcomm]

/-- Settles O45: a cleared slot holds words 0 alone, and OR and AND of words are commutative. -/
theorem clearAndCommuteLaws : Obligations.ClearAndCommuteLaws := by
  refine ⟨fun s t vd x v => bvGet_after_bvClear, fun s t t' a b ha hb hf hl => ⟨?_, ?_⟩⟩
  · exact slot?_combine_comm BitVec.or_comm ha hb hf hl
  · exact slot?_combine_comm BitVec.and_comm ha hb hf hl

/-! A command performed twice (20_memory.md section 2) -/

theorem bind_ok_eq_error_iff {α β : Type} {op : Except Error α} {g : α → β} {e : Error} :
    (op >>= fun a => Except.ok (g a)) = .error e ↔ op = .error e := by
  cases op <;> simp

theorem bind_ok_eq_ok_iff {α β : Type} {op : Except Error α} {g : α → β} {b : β} :
    (op >>= fun a => Except.ok (g a)) = .ok b ↔ ∃ a, op = .ok a ∧ g a = b := by
  cases op <;> simp

/-- A command that finds its operand by `op` and then does `f` leaves the slots when it is repeated, where its
checks see no error response and where `f`, done on what it left, changes nothing. A refused or erroneous command is
refused again or meets its error again. -/
theorem slots_of_repeat {i : Instr} {α : Type} {op : State → Except Error α} {f : State → α → State}
    (hexec : ∀ s, exec i s = s.perform (op s >>= fun a => .ok ((f s a).respond statusOk 0)))
    (hagain : ∀ s a t, op s = .ok a → t = (f s a).okResponse 0 → ∃ b, op t = .ok b ∧ f t b = t)
    (hraise : ∀ s e, op (s.raise e) = op s := by intro _ e; cases e <;> rfl)
    {s t u : State} (ht : exec i s = .next t) (hu : exec i t = .next u) : u.slots = t.slots := by
  rw [hexec] at ht hu
  rcases perform_cases hu with ⟨-, rfl⟩ | ⟨-, e, -, rfl⟩ | ⟨htf, hbody⟩
  · rfl
  · exact raise_slots t e
  · obtain ⟨b, hb, rfl⟩ := bind_ok_eq_ok_iff.mp hbody
    rcases perform_cases ht with ⟨hf, rfl⟩ | ⟨-, e, he, rfl⟩ | ⟨-, hbody'⟩
    · simp [hf] at htf
    · rw [hraise, bind_ok_eq_error_iff.mp he] at hb
      cases hb
    · obtain ⟨a, ha, hleft⟩ := bind_ok_eq_ok_iff.mp hbody'
      obtain ⟨b', hb', hsame⟩ := hagain s a t ha hleft.symm
      obtain rfl : b' = b := Except.ok.inj (hb'.symm.trans hb)
      rw [hsame, State.respond_slots]

section Again

variable {s t : State} {vd vs : Handle} {k : Kind} {x : Arg}

theorem setBit_again {p : Place} (hp : s.bitOperand vd x = .ok p) (ht : t = (s.setBit vd p).okResponse 0) :
    ∃ q, t.bitOperand vd x = .ok q ∧ t.setBit vd q = t := by
  rcases bitOperand_eq s vd x with ⟨v, hv, hk, hx, ho⟩ | ⟨-, ho⟩ | ⟨v, -, -, -, ho⟩
  · obtain rfl : bitPlace s.width x.toNat = p := Except.ok.inj (ho.symm.trans hp)
    obtain ⟨w, -, hb⟩ := bit?_isSome_of_lt hv hx
    have hkind : t.kind? vd = some .bit := by simp [ht, kind?_of_slot hv, hk]
    have hset : t.bit? vd x.toNat = some true := by simp [ht, bit?_setBit_same hb]
    exact ⟨_, bitOperand_of_bit? hkind hset, setBit_self hset⟩
  · simp [ho] at hp
  · simp [ho] at hp

theorem clearSlot_again {v : Slot} (hv : s.slotOfKind k vd = .ok v)
    (ht : t = (s.setWords vd (List.replicate v.len 0)).okResponse 0) :
    ∃ u, t.slotOfKind k vd = .ok u ∧ t.setWords vd (List.replicate u.len 0) = t := by
  rcases slotOfKind_eq s k vd with ⟨u, hu, hk, ho⟩ | ⟨-, ho⟩
  · obtain rfl : u = v := Except.ok.inj (ho.symm.trans hv)
    have hleft : t.slot? vd = some ⟨u.kind, List.replicate u.len 0⟩ := by simp [ht, slot?_setWords_same hu]
    exact ⟨_, slotOfKind_of_kind hleft hk, by simpa using setWords_self hleft⟩
  · simp [ho] at hv

/-- Combining the combination with the same list again changes nothing. -/
theorem zipWith_zipWith_right {f : Word → Word → Word} (hagain : ∀ x y, f (f x y) y = f x y) (xs ys : List Word) :
    List.zipWith f (List.zipWith f xs ys) ys = List.zipWith f xs ys := by
  induction xs generalizing ys with
  | nil => simp
  | cons x xs ih => cases ys <;> simp [ih, hagain]

theorem combine_again {f : Word → Word → Word} (hself : ∀ x, f x x = x) (hagain : ∀ x y, f (f x y) y = f x y)
    {a : Slot × Slot} (ha : s.pairOperand vd vs = .ok a)
    (ht : t = (s.setWords vd (List.zipWith f a.1.words a.2.words)).okResponse 0) :
    ∃ b, t.pairOperand vd vs = .ok b ∧ t.setWords vd (List.zipWith f b.1.words b.2.words) = t := by
  rcases pairOperand_eq s vd vs with ⟨v, u, hv, hu, hvk, huk, hl, ho⟩ | ⟨-, ho⟩ | ⟨v, u, -, -, -, -, -, ho⟩
  · obtain rfl : (v, u) = a := Except.ok.inj (ho.symm.trans ha)
    have hleft : t.slot? vd = some ⟨v.kind, List.zipWith f v.words u.words⟩ := by simp [ht, slot?_setWords_same hv]
    by_cases hvs : vs = vd
    · subst hvs
      refine ⟨_, pairOperand_of_len_eq hleft hleft hvk hvk rfl, ?_⟩
      simpa [hself] using setWords_self hleft
    · have hsource : t.slot? vs = some u := by rw [ht, slot?_okResponse, slot?_setWords_other _ hvs, hu]
      refine ⟨_, pairOperand_of_len_eq hleft hsource hvk huk (by simpa using hl.ge), ?_⟩
      simpa [zipWith_zipWith_right hagain] using setWords_self hleft
  · simp [ho] at ha
  · simp [ho] at ha

theorem allocate_again {n : Nat} (hn : s.newOperand vd x = .ok n)
    (ht : t = (s.setSlot vd (Slot.zeroed k n)).okResponse 0) :
    ∃ m, t.newOperand vd x = .ok m ∧ t.setSlot vd (Slot.zeroed k m) = t := by
  rcases newOperand_eq s vd x with ⟨hh, hx, ho⟩ | ⟨-, ho⟩ | ⟨-, -, ho⟩
  · obtain rfl : x.toNat = n := Except.ok.inj (ho.symm.trans hn)
    have hleft : t.slot? vd = some (Slot.zeroed k x.toNat) := by simp [ht, slot?_setSlot_same _ hh]
    exact ⟨_, newOperand_of_le ((slot?_some_iff t vd).mp ⟨_, hleft⟩) (by simpa [ht] using hx), setSlot_self hleft⟩
  · simp [ho] at hn
  · simp [ho] at hn

end Again

theorem or_or_right (x y : Word) : (x ||| y) ||| y = x ||| y := by
  rw [BitVec.or_assoc, BitVec.or_self]

theorem and_and_right (x y : Word) : (x &&& y) &&& y = x &&& y := by
  rw [BitVec.and_assoc, BitVec.and_self]

/-- Settles O47: each command, performed on what it leaves, writes what it finds. -/
theorem idempotentCommands : Obligations.IdempotentCommands := by
  rintro i s t u (⟨vd, x, rfl⟩ | ⟨vd, rfl | rfl⟩ | ⟨vd, vs, rfl | rfl⟩ | ⟨vd, n, rfl | rfl⟩)
  · exact slots_of_repeat (exec_bvSet vd x) fun _ _ _ => setBit_again
  · exact slots_of_repeat (exec_bvClear vd) fun _ _ _ => clearSlot_again
  · exact slots_of_repeat (exec_cvClear vd) fun _ _ _ => clearSlot_again
  · exact slots_of_repeat (exec_bvOr vd vs) fun _ _ _ => combine_again (fun _ => BitVec.or_self) or_or_right
  · exact slots_of_repeat (exec_bvAnd vd vs) fun _ _ _ => combine_again (fun _ => BitVec.and_self) and_and_right
  · exact slots_of_repeat (exec_bvNew vd n) fun _ _ _ => allocate_again
  · exact slots_of_repeat (exec_cvNew vd n) fun _ _ _ => allocate_again

/-! The word loops of the pseudocode (40_bit_vector.md, 41_counter_vector.md) -/

theorem memWrite_setWords (s : State) (h : Handle) (ws : List Word) (j : Nat) (x : Word) :
    (s.setWords h ws).memWrite h j x = s.setWords h (ws.set j x) := by
  simp [State.memWrite, State.setWords, List.modify_modify_eq, Function.comp_def]

theorem setWords_setSlot (s : State) (h : Handle) (v : Slot) (ws : List Word) :
    (s.setSlot h v).setWords h ws = s.setSlot h { v with words := ws } := by
  simp [State.setWords, State.setSlot, List.set_eq_modify, List.modify_modify_eq, Function.comp_def]

/-- The words of a slot after `k` rounds of a loop that writes `new` over `old`. -/
def partlyWritten (old new : List Word) (k : Nat) : List Word := new.take k ++ old.drop k

theorem partlyWritten_zero (old new : List Word) : partlyWritten old new 0 = old := by
  simp [partlyWritten]

theorem partlyWritten_length {old new : List Word} (hl : new.length = old.length) :
    partlyWritten old new old.length = new := by
  simp [partlyWritten, ← hl]

theorem partlyWritten_set {old new : List Word} {k : Nat} {x : Word} (hl : new.length = old.length)
    (hx : new[k]? = some x) : (partlyWritten old new k).set k x = partlyWritten old new (k + 1) := by
  obtain ⟨hk, rfl⟩ := List.getElem?_eq_some_iff.mp hx
  have hdrop : old.drop k = old[k] :: old.drop (k + 1) := List.drop_eq_getElem_cons (hl ▸ hk)
  rw [partlyWritten, partlyWritten, List.set_append_right _ _ (by simp), List.length_take, min_eq_left hk.le,
    Nat.sub_self, hdrop, List.set_cons_zero, List.take_succ_eq_append_getElem hk, List.append_assoc]
  rfl

/-- Round `k` of a loop finds word `k` as it was before the loop, in whichever slot. -/
theorem word?_setWords_partlyWritten {s : State} {g h : Handle} {v : Slot} {new : List Word} {k : Nat}
    (hv : s.slot? h = some v) (hk : k ≤ new.length) :
    (s.setWords h (partlyWritten v.words new k)).word? g k = s.word? g k := by
  by_cases hg : g = h
  · subst hg
    rw [word?_of_slot (slot?_setWords_same hv _), word?_of_slot hv, partlyWritten,
      List.getElem?_append_right (by simp)]
    simp [hk]
  · rw [State.word?, slot?_setWords_other _ hg]; rfl

/-- A loop over the words of a slot that writes `new[k]` in its round `k` writes `new`. -/
theorem wordLoop_eq_setWords {s : State} {h : Handle} {v : Slot} {new : List Word} {val : State → Nat → Word}
    (hv : s.slot? h = some v) (hl : new.length = v.len)
    (hval : ∀ k, k < v.len → new[k]? = some (val (s.setWords h (partlyWritten v.words new k)) k)) :
    (List.range v.len).foldl (fun t j => t.memWrite h j (val t j)) s = s.setWords h new := by
  have hround : ∀ k, k ≤ v.len → (List.range k).foldl (fun t j => t.memWrite h j (val t j)) s =
      s.setWords h (partlyWritten v.words new k) := by
    intro k
    induction k with
    | zero =>
      intro _
      rw [partlyWritten_zero, setWords_self hv]; rfl
    | succ k ih =>
      intro hk
      rw [List.range_succ, List.foldl_append, ih (by omega), List.foldl_cons, List.foldl_nil, memWrite_setWords,
        partlyWritten_set hl (hval k hk)]
  rw [hround v.len le_rfl, partlyWritten_length hl]

/-- The loop that writes 0 to every word. -/
theorem zeroLoop_eq_setWords {s : State} {h : Handle} {v : Slot} (hv : s.slot? h = some v) :
    (List.range v.len).foldl (fun t j => t.memWrite h j 0) s = s.setWords h (List.replicate v.len 0) :=
  wordLoop_eq_setWords hv List.length_replicate fun _ hk => List.getElem?_replicate_of_lt hk

/-- The loop that writes `f` of the two words at each index, where the sources may be one slot. -/
theorem combineLoop_eq_setWords {s : State} {vd vs : Handle} {v u : Slot} (f : Word → Word → Word)
    (hv : s.slot? vd = some v) (hu : s.slot? vs = some u) (hl : v.len = u.len) :
    (List.range v.len).foldl (fun t j => t.memWrite vd j (f (t.memRead vd j) (t.memRead vs j))) s =
      s.setWords vd (List.zipWith f v.words u.words) := by
  have hlen : (List.zipWith f v.words u.words).length = v.len := by simpa using hl.le
  refine wordLoop_eq_setWords hv hlen fun k hk => ?_
  obtain ⟨x, hx⟩ := word?_isSome_of_lt hv hk
  obtain ⟨y, hy⟩ := word?_isSome_of_lt hu (hl ▸ hk)
  have hkept := fun g => word?_setWords_partlyWritten (g := g) hv (hk.le.trans hlen.ge)
  rw [memRead_of_word ((hkept vd).trans hx), memRead_of_word ((hkept vs).trans hy)]
  rw [word?_of_slot hv] at hx
  rw [word?_of_slot hu] at hy
  simp [List.getElem?_zipWith, hx, hy]

theorem newLoop_eq_setSlot {s : State} {h : Handle} {k : Kind} {old : List Word} (hh : h.toNat < s.numVectors) :
    (List.range old.length).foldl (fun t j => t.memWrite h j 0) (s.setSlot h ⟨k, old⟩) =
      s.setSlot h (Slot.zeroed k old.length) :=
  (zeroLoop_eq_setWords (slot?_setSlot_same ⟨k, old⟩ hh)).trans (setWords_setSlot ..)

/-- Settles O48: each command writes the slot that its loop writes. -/
theorem wholeVectorCommandsAreWordLoops : Obligations.WholeVectorCommandsAreWordLoops := by
  intro s vd vs v u hf hv hu
  refine ⟨fun hk => ?_, fun hk => ?_, fun hvk huk hl => ⟨?_, ?_⟩, fun n old hn hold => ?_⟩
  · rw [zeroLoop_eq_setWords hv, exec_bvClear, perform_clearSlot hf hv hk]
  · rw [zeroLoop_eq_setWords hv, exec_cvClear, perform_clearSlot hf hv hk]
  · rw [combineLoop_eq_setWords (fun x y => x ||| y) hv hu hl, exec_bvOr, perform_combine _ hf hv hu hvk huk hl]
  · rw [combineLoop_eq_setWords (fun x y => x &&& y) hv hu hl, exec_bvAnd, perform_combine _ hf hv hu hvk huk hl]
  · have hh := (slot?_some_iff s vd).mp ⟨v, hv⟩
    rw [exec_bvNew, exec_cvNew, perform_allocate _ hf hh hn, perform_allocate _ hf hh hn, ← hold,
      newLoop_eq_setSlot hh, newLoop_eq_setSlot hh]
    exact ⟨rfl, rfl⟩

/-! A single-counter command performed over and over (R79) -/

/-- A counter the view shows is below 16. -/
theorem counter?_le {s : State} {h : Handle} {i c : Nat} (hc : s.counter? h i = some c) : c ≤ 15 := by
  obtain ⟨w, -, rfl⟩ := Option.map_eq_some_iff.mp hc
  exact Nat.le_of_lt_succ (Nat.mod_lt _ (by decide))

section Count

variable {mk : Handle → Arg → Instr} {f : Nat → Nat} {s : State} {vd : Handle} {x : Arg} {c : Nat}

/-- What a command of the rule of `f` does to every counter of every slot, for the next command in the row. -/
theorem exec_of_countRuleFor (hrule : CountRuleFor mk f) (hf : s.faulted = false) (hk : s.kind? vd = some .ctr)
    (hc : s.counter? vd x.toNat = some c) :
    ∃ t, exec (mk vd x) s = .next t ∧ t.faulted = false ∧ t.kind? vd = some .ctr ∧
      t.counter? vd x.toNat = some (f c) ∧
      ∀ (g : Handle) (k : Nat), (g, k) ≠ (vd, x.toNat) → t.counter? g k = s.counter? g k := by
  obtain ⟨v, hv, hvk, hx⟩ := slot_of_counter? hk hc
  obtain ⟨c', t, hc', -, ht, ⟨hframe, -, -⟩, hkind, -, hcount, hothers, -⟩ := hrule.2 s vd x v hf hv hvk hx
  obtain rfl : c = c' := Option.some.inj (hc.symm.trans hc')
  refine ⟨t, ht, hframe.faulted.trans hf, hkind, hcount, fun g k hne => ?_⟩
  by_cases hg : g = vd
  · subst hg
    exact hothers k fun hkx => hne (by rw [hkx])
  · exact counter?_congr hframe.width (hframe.slots g hg) k

/-- A row of `n` such commands takes the counter through `n` applications of `f`. -/
theorem execTimes_of_countRuleFor (hrule : CountRuleFor mk f) (n : Nat) (hf : s.faulted = false)
    (hk : s.kind? vd = some .ctr) (hc : s.counter? vd x.toNat = some c) :
    ∃ t, execTimes (mk vd x) n s = .next t ∧ t.counter? vd x.toNat = some (f^[n] c) ∧
      ∀ (g : Handle) (k : Nat), (g, k) ≠ (vd, x.toNat) → t.counter? g k = s.counter? g k := by
  induction n generalizing s c with
  | zero => exact ⟨s, rfl, hc, fun _ _ _ => rfl⟩
  | succ n ih =>
    obtain ⟨u, hu, huf, huk, huc, huothers⟩ := exec_of_countRuleFor hrule hf hk hc
    obtain ⟨t, ht, htc, htothers⟩ := ih huf huk huc
    refine ⟨t, ?_, htc, fun g k hne => (htothers g k hne).trans (huothers g k hne)⟩
    rw [execTimes, hu]
    exact ht

/-- Two such commands in a row. -/
theorem exec_exec_of_countRuleFor {mk' : Handle → Arg → Instr} {f' : Nat → Nat} (hrule : CountRuleFor mk f)
    (hrule' : CountRuleFor mk' f') (hf : s.faulted = false) (hk : s.kind? vd = some .ctr)
    (hc : s.counter? vd x.toNat = some c) :
    ∃ t u, exec (mk vd x) s = .next t ∧ exec (mk' vd x) t = .next u ∧ u.counter? vd x.toNat = some (f' (f c)) := by
  obtain ⟨t, ht, htf, htk, htc, -⟩ := exec_of_countRuleFor hrule hf hk hc
  obtain ⟨u, hu, -, -, huc, -⟩ := exec_of_countRuleFor hrule' htf htk htc
  exact ⟨t, u, ht, hu, huc⟩

end Count

theorem iterate_increment {c : Nat} (hc : c ≤ 15) (n : Nat) : (fun c => min (c + 1) 15)^[n] c = min (c + n) 15 := by
  induction n with
  | zero => simp [hc]
  | succ n ih => rw [Function.iterate_succ_apply', ih]; omega

theorem iterate_decrement (c n : Nat) : (fun c => c - 1)^[n] c = c - n := by
  induction n with
  | zero => rfl
  | succ n ih => rw [Function.iterate_succ_apply', ih]; omega

/-- Settles O46: the rules of O36 and O37, iterated and one after the other. -/
theorem countersSaturateOverRuns : Obligations.CountersSaturateOverRuns := by
  intro s vd x c hf hk hc
  have hle := counter?_le hc
  refine ⟨fun n => ?_, fun n => ?_, ?_, ?_⟩
  · rw [← iterate_increment hle]
    exact execTimes_of_countRuleFor cvIncRule n hf hk hc
  · rw [← iterate_decrement]
    exact execTimes_of_countRuleFor cvDecRule n hf hk hc
  · have hundo : (if c < 15 then c else 14) = min (c + 1) 15 - 1 := by split <;> omega
    rw [hundo]
    exact exec_exec_of_countRuleFor cvIncRule cvDecRule hf hk hc
  · have hundo : (if 0 < c then c else 1) = min (c - 1 + 1) 15 := by split <;> omega
    rw [hundo]
    exact exec_exec_of_countRuleFor cvDecRule cvIncRule hf hk hc

/-! Two states that agree on the slots a command names (R18, 10_state.md section 1) -/

/-- What two states share where a command that names the slots `hs` cannot tell them apart. -/
structure AgreeOn (hs : List Handle) (s s' : State) : Prop where
  config    : s'.config = s.config
  faulted   : s'.faulted = s.faulted
  faultCode : s'.faultCode = s.faultCode
  slots     : ∀ h ∈ hs, s'.slot? h = s.slot? h

/-- Two states that agree on `hs` and show the same response. -/
def SameResponse (hs : List Handle) (t t' : State) : Prop :=
  AgreeOn hs t t' ∧ t'.status = t.status ∧ t'.result = t.result

theorem combine_eq_bind (s : State) (f : Word → Word → Word) (vd vs : Handle) :
    s.combine f vd vs = s.pairOperand vd vs >>= fun a =>
      .ok ((s.setWords vd (List.zipWith f a.1.words a.2.words)).respond statusOk 0) := rfl

namespace AgreeOn

variable {hs : List Handle} {s s' : State} {h vd vs : Handle} {x : Arg}

theorem width (hag : AgreeOn hs s s') : s'.width = s.width := congrArg Config.width hag.config

theorem maxWords (hag : AgreeOn hs s s') : s'.maxWords = s.maxWords := congrArg Config.maxWords hag.config

/-! A command's operands and reads are the same in both -/

theorem slotAt (hag : AgreeOn hs s s') (hm : h ∈ hs) : s'.slotAt h = s.slotAt h := by
  have hslot : s'.slots[h.toNat]? = s.slots[h.toNat]? := hag.slots h hm
  rw [State.slotAt, State.slotAt, hslot]

theorem slotOfKind (hag : AgreeOn hs s s') (hm : h ∈ hs) (k : Kind) : s'.slotOfKind k h = s.slotOfKind k h := by
  rw [State.slotOfKind, State.slotOfKind, hag.slotAt hm]

theorem bitOperand (hag : AgreeOn hs s s') (hm : h ∈ hs) : s'.bitOperand h x = s.bitOperand h x := by
  rw [State.bitOperand, State.bitOperand, hag.slotOfKind hm, hag.width]

theorem counterOperand (hag : AgreeOn hs s s') (hm : h ∈ hs) : s'.counterOperand h x = s.counterOperand h x := by
  rw [State.counterOperand, State.counterOperand, hag.slotOfKind hm, hag.width]

theorem wordOperand (hag : AgreeOn hs s s') (hm : h ∈ hs) : s'.wordOperand h x = s.wordOperand h x := by
  rw [State.wordOperand, State.wordOperand, hag.slotAt hm]

theorem pairOperand (hag : AgreeOn hs s s') (hd : vd ∈ hs) (hv : vs ∈ hs) :
    s'.pairOperand vd vs = s.pairOperand vd vs := by
  rw [State.pairOperand, State.pairOperand, hag.slotAt hd, hag.slotAt hv]

theorem newOperand (hag : AgreeOn hs s s') (hm : h ∈ hs) : s'.newOperand h x = s.newOperand h x := by
  rw [State.newOperand, State.newOperand, hag.slotAt hm, hag.maxWords]

theorem memRead (hag : AgreeOn hs s s') (hm : h ∈ hs) (j : Nat) : s'.memRead h j = s.memRead h j := by
  have hslot : s'.slots[h.toNat]? = s.slots[h.toNat]? := hag.slots h hm
  rw [State.memRead, State.memRead, hslot]

theorem readBit (hag : AgreeOn hs s s') (hm : h ∈ hs) (p : Place) : s'.readBit h p = s.readBit h p := by
  rw [State.readBit, State.readBit, hag.memRead hm]

theorem readCounter (hag : AgreeOn hs s s') (hm : h ∈ hs) (p : Place) : s'.readCounter h p = s.readCounter h p := by
  rw [State.readCounter, State.readCounter, hag.memRead hm, hag.width]

/-! The same write, and the same response, keep them in agreement -/

theorem modify (hag : AgreeOn hs s s') (h : Handle) (f : Slot → Slot) :
    AgreeOn hs { s with slots := s.slots.modify h.toNat f } { s' with slots := s'.slots.modify h.toNat f } where
  config := by simpa [State.config] using hag.config
  faulted := hag.faulted
  faultCode := hag.faultCode
  slots g hg := by
    show (s'.slots.modify h.toNat f)[g.toNat]? = (s.slots.modify h.toNat f)[g.toNat]?
    rw [slot?_modify, slot?_modify, hag.slots g hg]

theorem setWords (hag : AgreeOn hs s s') (h : Handle) (ws : List Word) :
    AgreeOn hs (s.setWords h ws) (s'.setWords h ws) := hag.modify h _

theorem setSlot (hag : AgreeOn hs s s') (h : Handle) (v : Slot) : AgreeOn hs (s.setSlot h v) (s'.setSlot h v) := by
  rw [State.setSlot, State.setSlot, List.set_eq_modify, List.set_eq_modify]
  exact hag.modify h _

theorem setBit (hag : AgreeOn hs s s') (hm : h ∈ hs) (p : Place) : AgreeOn hs (s.setBit h p) (s'.setBit h p) := by
  rw [State.setBit, State.setBit, hag.memRead hm]
  exact hag.modify h _

theorem writeCounter (hag : AgreeOn hs s s') (hm : h ∈ hs) (p : Place) (c : BitVec 4) :
    AgreeOn hs (s.writeCounter h p c) (s'.writeCounter h p c) := by
  rw [State.writeCounter, State.writeCounter, hag.memRead hm, hag.width]
  exact hag.modify h _

theorem respond (hag : AgreeOn hs s s') (st : BitVec 4) {r r' : BitVec 64} (hr : r' = r) :
    SameResponse hs (s.respond st r) (s'.respond st r') :=
  ⟨⟨hag.config, hag.faulted, hag.faultCode, hag.slots⟩, rfl, hr⟩

theorem raise (hag : AgreeOn hs s s') (e : Error) : SameResponse hs (s.raise e) (s'.raise e) := by
  rw [raise_eq, raise_eq]
  split
  · exact ⟨⟨hag.config, rfl, rfl, hag.slots⟩, rfl, rfl⟩
  · exact hag.respond e.code rfl

theorem countAt (hag : AgreeOn hs s s') (hm : h ∈ hs) (stop : BitVec 4) (g : BitVec 4 → BitVec 4) (p : Place) :
    SameResponse hs (Machine.countAt stop g h s p) (Machine.countAt stop g h s' p) := by
  rw [Machine.countAt, Machine.countAt, hag.readCounter hm]
  split
  · exact hag.respond _ rfl
  · exact (hag.writeCounter hm ..).respond _ rfl

/-- Two states in agreement perform a body alike where their operands are the same. -/
theorem perform {α : Type} {op op' : Except Error α} {f f' : α → State} (hag : AgreeOn hs s s') (hop : op' = op)
    (hf : ∀ a, SameResponse hs (f a) (f' a)) {t t' : State}
    (ht : s.perform (op >>= fun a => .ok (f a)) = .next t) (ht' : s'.perform (op' >>= fun a => .ok (f' a)) = .next t') :
    SameResponse hs t t' := by
  subst hop
  cases hfault : s.faulted with
  | true =>
    rw [perform_of_faulted _ hfault, Host.Outcome.next.injEq] at ht
    rw [perform_of_faulted _ (hag.faulted.trans hfault), Host.Outcome.next.injEq] at ht'
    subst ht ht'
    exact hag.respond 0xF (congrArg _ hag.faultCode)
  | false =>
    cases op' with
    | error e =>
      rw [error_bind, perform_error hfault, Host.Outcome.next.injEq] at ht
      rw [error_bind, perform_error (hag.faulted.trans hfault), Host.Outcome.next.injEq] at ht'
      exact ht ▸ ht' ▸ hag.raise e
    | ok a =>
      rw [ok_bind, perform_ok hfault, Host.Outcome.next.injEq] at ht
      rw [ok_bind, perform_ok (hag.faulted.trans hfault), Host.Outcome.next.injEq] at ht'
      exact ht ▸ ht' ▸ hf a

/-- A command gives two states that agree on the slots it names the same response and leaves them in agreement. -/
theorem exec {i : Instr} {t t' : State} (hag : AgreeOn i.names s s')
    (ht : Machine.exec i s = .next t) (ht' : Machine.exec i s' = .next t') : SameResponse i.names t t' := by
  cases i with
  | bvNew vd n | cvNew vd n =>
    exact hag.perform (hag.newOperand (.head _)) (fun _ => (hag.setSlot ..).respond _ rfl) ht ht'
  | bvClear vd | cvClear vd =>
    exact hag.perform (hag.slotOfKind (.head _) _) (fun _ => (hag.setWords ..).respond _ rfl) ht ht'
  | bvOr vd vs =>
    rw [exec_bvOr, combine_eq_bind] at ht ht'
    exact hag.perform (hag.pairOperand (.head _) (.tail _ (.head _))) (fun _ => (hag.setWords ..).respond _ rfl) ht ht'
  | bvAnd vd vs =>
    rw [exec_bvAnd, combine_eq_bind] at ht ht'
    exact hag.perform (hag.pairOperand (.head _) (.tail _ (.head _))) (fun _ => (hag.setWords ..).respond _ rfl) ht ht'
  | bvSet vd x =>
    exact hag.perform (hag.bitOperand (.head _)) (fun p => (hag.setBit (.head _) p).respond _ rfl) ht ht'
  | bvGet vd x =>
    exact hag.perform (hag.bitOperand (.head _)) (fun p => hag.respond _ (hag.readBit (.head _) p)) ht ht'
  | bvGetset vd x =>
    exact hag.perform (hag.bitOperand (.head _))
      (fun p => (hag.setBit (.head _) p).respond _ (hag.readBit (.head _) p)) ht ht'
  | bvIsempty vd => exact hag.perform (hag.slotOfKind (.head _) _) (fun _ => hag.respond _ rfl) ht ht'
  | cvInc vd x => exact hag.perform (hag.counterOperand (.head _)) (hag.countAt (.head _) 15 (· + 1)) ht ht'
  | cvDec vd x => exact hag.perform (hag.counterOperand (.head _)) (hag.countAt (.head _) 0 (· - 1)) ht ht'
  | cvGet vd x =>
    exact hag.perform (hag.counterOperand (.head _))
      (fun p => hag.respond _ (congrArg _ (hag.readCounter (.head _) p))) ht ht'
  | alignUp m => exact hag.perform (by rw [hag.width]) (fun _ => hag.respond _ rfl) ht ht'
  | rdWord vd j =>
    exact hag.perform (hag.wordOperand (.head _)) (fun j => hag.respond _ (hag.memRead (.head _) j)) ht ht'
  | reserved hdr =>
    have hop : (Except.error .illegalCommand : Except Error Unit) = .error .illegalCommand := rfl
    exact hag.perform hop (fun _ => hag.respond 0 (r := 0) rfl) ht ht'

end AgreeOn

/-- Settles O27: the four fields and the named slots are what `AgreeOn.exec` keeps. -/
theorem otherSlotsAreNotRead : Obligations.OtherSlotsAreNotRead := by
  intro i s s' t t' hconfig hfaulted hcode hslots ht ht'
  have hag : AgreeOn i.names s s' := ⟨hconfig, hfaulted, hcode, hslots⟩
  obtain ⟨⟨-, hf, hc, hs⟩, hst, hres⟩ := hag.exec ht ht'
  exact ⟨hst, hres, hf, hc, hs⟩

end Sys2Proof.Machine
